-- ==== Sys2Proof/Word.lean ====
section
/-! DEFINITION. The machine's words (00_scope R5, R6): a register slot and a command word have 32 bits, a buffer
location has 8, a PCM sample has 16. -/

namespace Sys2Proof

/-- A location of `IBUF` or `OBUF` (20_memory R40), and a µ-law code. -/
abbrev Byte := BitVec 8

/-- A register slot, or a command word (00_scope R5). -/
abbrev Word := BitVec 32

/-- The 16-bit two's-complement pattern of a PCM sample (10_state R15). -/
abbrev Sample := BitVec 16

end Sys2Proof
end

