-- ==== Sys2Proof/Syntax.lean ====
section
/-! DEFINITION. The block's instructions are its command words (30_encoding R63): seven of them, one constructor each. -/

namespace Sys2Proof

/-- The commands of the opcode map, 30_encoding R63. Register operands are implicit (R65); the one explicit operand is
the 16-bit immediate of `ENCI` (R62, R64). -/
inductive Instr where
  | nop                    -- 43_control_commands R151
  | enc                    -- 41_sample_encoder R115
  | enci (imm16 : Sample)  -- 41_sample_encoder R116
  | encm                   -- 41_sample_encoder R117
  | loc                    -- 40_chunk_locator R84
  | hdr                    -- 42_header_synthesizer R142
  | rst                    -- 43_control_commands R152
  deriving DecidableEq, Repr

end Sys2Proof
end

