-- ==== Sys2Proof/Decode.lean ====
section
/-! DEFINITION. Command encoding (30_encoding): the opcode map R63 as a table of masks and patterns, the decoder (total,
rejecting by name, R66) and the encoder. -/

namespace Sys2Proof

/-- The rows of the opcode map by name; the immediate of `ENCI` is read from the word by `rowInstr`. -/
inductive Op where
  | nop
  | enc
  | enci
  | encm
  | loc
  | hdr
  | rst
  deriving DecidableEq, Repr

/-- One row of the opcode map, 30_encoding R63. -/
structure OpRow where
  op : Op
  pattern : Word
  mask : Word
  deriving DecidableEq, Repr

/-- The opcode map, 30_encoding R63, in its order. -/
def opcodeMap : List OpRow :=
  [ ⟨.nop,  0x00000000#32, 0xFFFFFFFF#32⟩,
    ⟨.enc,  0x01000000#32, 0xFFFFFFFF#32⟩,
    ⟨.enci, 0x02000000#32, 0xFFFF0000#32⟩,
    ⟨.encm, 0x03000000#32, 0xFFFFFFFF#32⟩,
    ⟨.loc,  0x04000000#32, 0xFFFFFFFF#32⟩,
    ⟨.hdr,  0x05000000#32, 0xFFFFFFFF#32⟩,
    ⟨.rst,  0x0F000000#32, 0xFFFFFFFF#32⟩ ]

/-- "A word is a legal command exactly when `(word & mask) == match` for one row" (R63). -/
def OpRow.covers (r : OpRow) (w : Word) : Bool := (w &&& r.mask) == r.pattern

/-- The command a row stands for at the word `w`; `imm16` is `word[15:0]` (R62, R64). -/
def rowInstr (op : Op) (w : Word) : Instr :=
  match op with
  | .nop => .nop
  | .enc => .enc
  | .enci => .enci (w.extractLsb' 0 16)
  | .encm => .encm
  | .loc => .loc
  | .hdr => .hdr
  | .rst => .rst

/-- The opcode field `word[31:24]` (R61, R62). -/
def opcodeOf (w : Word) : BitVec 8 := w.extractLsb' 24 8

/-- Why a word is illegal (R66): its opcode is unassigned (0x06 to 0x0E, 0x10 to 0xFF), or its opcode is assigned and
its `zero` field is not zero. The block keeps neither: both raise `E_ILLEGAL`. -/
inductive Illegal where
  | unassignedOpcode (opcode : BitVec 8)
  | nonzeroZeroField (opcode : BitVec 8)
  deriving DecidableEq, Repr

/-- The name of what is wrong with a word no row covers (R66). -/
def illegalReason (w : Word) : Illegal :=
  if opcodeMap.any (fun r => opcodeOf r.pattern == opcodeOf w) then .nonzeroZeroField (opcodeOf w)
  else .unassignedOpcode (opcodeOf w)

/-- The decoder, total on any word (R66). -/
def decode (w : Word) : Except Illegal Instr :=
  match opcodeMap.find? (fun r => r.covers w) with
  | some r => .ok (rowInstr r.op w)
  | none => .error (illegalReason w)

/-- A word from its fields: opcode in bits [31:24], zero in [23:16], sixteen low bits (R61, R62). -/
def commandWord (opcode : BitVec 8) (low : BitVec 16) : Word := opcode ++ 0#8 ++ low

/-- The encoder (R61 to R64). -/
def encode : Instr → Word
  | .nop => commandWord 0x00 0
  | .enc => commandWord 0x01 0
  | .enci imm16 => commandWord 0x02 imm16
  | .encm => commandWord 0x03 0
  | .loc => commandWord 0x04 0
  | .hdr => commandWord 0x05 0
  | .rst => commandWord 0x0F 0

/-- The instruction the decoder reads from an opcode-table word: bit 0 is the word's least significant bit, bits from
`nbits` up are zero. Every command is one 32-bit word (R60), so a longer word is none. -/
def decodeTableWord (nbits w : Nat) : Option Instr :=
  if w % 2 ^ nbits < 4294967296 then
    match decode (BitVec.ofNat 32 (w % 2 ^ nbits)) with
    | .ok i => some i
    | .error _ => none
  else none

end Sys2Proof
end

