-- ==== Sys2Proof/Machine/Bytes.lean ====
section
/-! DEFINITION. Byte order and sign extension (00_scope R6, 20_memory R41). -/

namespace Sys2Proof.Machine

/-- Little-endian assembly of bytes given in ascending address order: `LE16` and `LE32` of 00_scope R6, and any other
width. -/
def leNat : List Byte → Nat
  | [] => 0
  | b :: bs => b.toNat + 256 * leNat bs

/-- The `n` little-endian bytes of `v` in ascending address order (00_scope R6); bits above `8n` are dropped. -/
def leBytes : Nat → Nat → List Byte
  | 0, _ => []
  | n + 1, v => BitVec.ofNat 8 v :: leBytes n (v / 256)

/-- `le16(v)`, 00_scope R6. -/
def le16 (v : Nat) : List Byte := leBytes 2 v

/-- `le32(v)`, 00_scope R6. -/
def le32 (v : Nat) : List Byte := leBytes 4 v

/-- `sext_16(v)`, 00_scope R6: the pattern read as a two's-complement integer. -/
def sext16 (v : Sample) : Int := v.toInt

/-- `zext_32(v)` of an `n`-bit field, 00_scope R6. -/
def zext32 {n : Nat} (v : BitVec n) : Word := v.setWidth 32

end Sys2Proof.Machine
end

