-- ==== Sys2Proof/Config.lean ====
section
/-! DEFINITION. The parameters of one machine (00_scope R5): fixed while it runs, different between machines.
`Machine.State` carries them in its field `cfg`, so a statement about every state is a statement about every choice of
them (log entry 1). -/

namespace Sys2Proof

/-- "A model should carry `SIGN_NONNEG`, `CTAB`, `IBUF_SIZE` and `OBUF_SIZE` as configuration fields" (00_scope R5). -/
structure Config where
  /-- Bytes of input buffer memory, OPEN (R5, decision D13). -/
  ibufSize : Nat
  /-- Bytes of output buffer memory, OPEN (R5, decision D13). -/
  obufSize : Nat
  /-- The sign flag, before the final complement, of a non-negative sample (R5, R101, decision D10). -/
  signNonneg : Byte
  /-- The compression table, a read-only memory of 256 entries of 3 bits (10_state R10 item 4, R27). -/
  ctab : Vector (BitVec 3) 256
  deriving DecidableEq, Repr

end Sys2Proof
end

