-- ==== Sys2Proof/Machine/Actions.lean ====
section
/-! DEFINITION. What the outside world can do to the block (10_state R11, 70_reset R200), the names of the register
slots (10_state R12), and the lines of host-sequence text (30_encoding R67, R68). Plain data only. -/

namespace Sys2Proof.Machine

/-- The two byte memories the host reaches (20_memory R40). -/
inductive Space where
  | ibuf
  | obuf
  deriving DecidableEq, Repr

/-- The register slots by name (10_state R12); `reserved` is any of the slots 10 to 15. -/
inductive Slot where
  | cmd
  | status
  | sample
  | code
  | marker
  | offset
  | ilen
  | src
  | dst
  | plen
  | reserved
  deriving DecidableEq, Repr

/-- One event from outside: a host action (10_state R11, "exactly four actions") or a hardware reset (70_reset R200).
A register index and a byte address are plain numbers: an index above 15 or an address outside the buffer is an action
the model refuses (R11, R23). -/
inductive HostEvent where
  | writeReg (i : Nat) (v : Word)
  | readReg (i : Nat)
  | writeByte (sp : Space) (a : Nat) (v : Byte)
  | readByte (sp : Space) (a : Nat)
  | hardwareReset
  deriving DecidableEq, Repr

/-- What a host read returned (10_state R11), with the place it was read from. -/
inductive Answer where
  | reg (i : Nat) (v : Word)
  | byte (sp : Space) (a : Nat) (v : Byte)
  deriving DecidableEq, Repr

/-- One line of a host sequence (30_encoding R67) or a pseudo-instruction (R68). The operand of `wr`, `enci` and `encs`
is an integer as it is written in the text; WellFormed says which integers are allowed. -/
inductive AsmLine where
  | wr (reg : Slot) (value : Int)
  | rd (reg : Slot)
  | wb (sp : Space) (a : Nat) (value : Nat)
  | rb (sp : Space) (a : Nat)
  | nop
  | enc
  | enci (imm : Int)
  | encm
  | loc
  | hdr
  | rst
  | marker (b0 b1 b2 b3 : Byte)
  | load (bytes : List Byte)
  | encs (v : Int)
  | check
  | transcode (input : List Byte)
  | concat (a b : List Byte)
  deriving DecidableEq, Repr

/-- Why a host sequence stopped early (45_host_sequences R160, R161, R166; 30_encoding R68 for `check`). -/
inductive AbortReason where
  | capacity
  | malformed
  | internal
  | failedCheck
  deriving DecidableEq, Repr

/-- A range of `OBUF`, the output a sequence names when it is done (R160): `len` bytes from `first` on. -/
structure OutRange where
  first : Nat
  len : Nat
  deriving DecidableEq, Repr

/-- How a host sequence ended: "the pair (done or aborted with a reason, output bytes if done)" (R160). -/
inductive SeqResult where
  | done (output : List Byte)
  | aborted (reason : AbortReason)
  deriving DecidableEq, Repr

end Sys2Proof.Machine
end

