-- ==== Sys2Proof/WellFormed.lean ====
section
/-! DEFINITION. Which terms are legal: configurations (00_scope R5), host events (10_state R11), lines of host-sequence
text (30_encoding R67, R68). A command needs no check of its own: `Instr` has the seven commands of R63 and its one
operand is any 16-bit value (R62, R64), so every term of `Instr` is well formed. -/

namespace Sys2Proof

/-- The constraints 00_scope R5 puts on the parameters: `0 <= IBUF_SIZE <= 2^31`, `58 <= OBUF_SIZE <= 2^31`, and
`SIGN_NONNEG` 0x80 or 0x00. (The table's 256 entries of 3 bits are in its type.) -/
def Config.legal (c : Config) : Bool :=
  decide (c.ibufSize ≤ 2147483648) && decide (58 ≤ c.obufSize) && decide (c.obufSize ≤ 2147483648) &&
    (c.signNonneg == 0x80#8 || c.signNonneg == 0x00#8)

end Sys2Proof

namespace Sys2Proof.Machine

/-- The size of a buffer (20_memory R40). -/
def Space.size (c : Config) : Space → Nat
  | .ibuf => c.ibufSize
  | .obuf => c.obufSize

/-- A host action has a target (10_state R11): a register index in 0 .. 15, a byte address below the buffer's size. -/
def HostEvent.inRange (c : Config) : HostEvent → Bool
  | .writeReg i _ => decide (i < 16)
  | .readReg i => decide (i < 16)
  | .writeByte sp a _ => decide (a < sp.size c)
  | .readByte sp a => decide (a < sp.size c)
  | .hardwareReset => true

/-- An operand of 16 bits as R67 lets it be written: "`imm` in -32768 .. 65535". -/
def immOk (v : Int) : Bool := decide (-32768 ≤ v) && decide (v ≤ 65535)

/-- A line of host-sequence text whose operands fit their fields (30_encoding R67, R68; 10_state R11). DESIGN CHOICE, safe
(log entry 20): `wr` and `rd` name one of the ten named slots; R67's "any slot name" does not say whether the reserved
slots 10 to 15 have one, and the model takes it that they do not. -/
def AsmLine.wf (c : Config) : AsmLine → Bool
  | .wr reg v => decide (reg ≠ .reserved) && decide (0 ≤ v) && decide (v < 4294967296)
  | .rd reg => decide (reg ≠ .reserved)
  | .wb sp a v => decide (a < sp.size c) && decide (v < 256)
  | .rb sp a => decide (a < sp.size c)
  | .enci v => immOk v
  | .encs v => immOk v
  | .load bs => decide (bs.length ≤ c.ibufSize)
  | .nop => true
  | .enc => true
  | .encm => true
  | .loc => true
  | .hdr => true
  | .rst => true
  | .marker _ _ _ _ => true
  | .check => true
  | .transcode _ => true
  | .concat _ _ => true

end Sys2Proof.Machine
end

