-- ==== Sys2Proof/Machine/Tables.lean ====
section
/-! DEFINITION. The contents of the compression table (10_state R27) and the configuration the machine has at reset. -/

namespace Sys2Proof.Machine

/-- The eight runs of 10_state R27: entries 0 to 1 are 0, 2 to 3 are 1, 4 to 7 are 2, and so on up to 128 to 255. -/
def ctabRuns : List (Nat × BitVec 3) :=
  [(2, 0), (2, 1), (4, 2), (8, 3), (16, 4), (32, 5), (64, 6), (128, 7)]

/-- The 256 entries of R27 as one list. -/
def ctabEntries : List (BitVec 3) := ctabRuns.flatMap (fun r => List.replicate r.1 r.2)

theorem ctabEntries_length : ctabEntries.toArray.size = 256 := by
  simp only [ctabEntries, ctabRuns, List.size_toArray, List.flatMap_cons, List.flatMap_nil, List.length_append,
    List.length_replicate, List.length_nil]

/-- The compression table of this hardware, 10_state R27. -/
def ctabR27 : Vector (BitVec 3) 256 := ⟨ctabEntries.toArray, ctabEntries_length⟩

/-- The configuration at reset: `SIGN_NONNEG` and `CTAB` are this hardware's (00_scope R5; log entry 2). The two sizes
are OPEN in R5; 64 and 64 are those of 95_test_vectors. DESIGN CHOICE, unsafe (log entry 1). -/
def resetConfig : Config where
  ibufSize := 64
  obufSize := 64
  signNonneg := 0x80#8
  ctab := ctabR27

end Sys2Proof.Machine
end

