-- ==== Sys2Proof/Machine/State.lean ====
section
/-! DEFINITION. Everything the spec gives the machine (10_state R10), the reasons a step can stop, and the state after
reset (10_state R31). -/

namespace Sys2Proof.Machine

/-- A buffer: the bytes that have a value, by rising address. A byte that is not listed has no value (20_memory R46,
10_state R31; log entry 5). -/
abbrev Memory := List Host.Cell

/-- The architectural state of R10, and two fields of the model's own for the host's side (`pending`, `answers`).
There is no program counter (R29). `CMD` stores nothing (R13) and the slots 10 to 15 store nothing (R23): the register
operations of Ops.lean read them as 0. -/
structure State where
  /-- The parameters of this machine, `CTAB` (R10 item 4) among them; no step changes them (log entry 1). -/
  cfg : Config
  /-- Slot 1, `STATUS` (R14): `ERR` in [7:4], `FOUND` in [0]; Flags.lean reads and writes the fields. -/
  status : Word
  /-- Slot 2, `SAMPLE[15:0]` (R15). -/
  sample : Sample
  /-- Slot 3, `CODE[7:0]` (R16). -/
  code : Byte
  /-- Slot 4, `MARKER` (R17). -/
  marker : Word
  /-- Slot 5, `OFFSET` (R18). -/
  offset : Word
  /-- Slot 6, `ILEN` (R19). -/
  ilen : Word
  /-- Slot 7, `SRC` (R20). -/
  src : Word
  /-- Slot 8, `DST` (R21). -/
  dst : Word
  /-- Slot 9, `PLEN` (R22). -/
  plen : Word
  /-- The input buffer (R25). -/
  ibuf : Memory
  /-- The output buffer (R26). -/
  obuf : Memory
  /-- The model's own: the host events still to come, oldest first (R11, R160; log entry 3). -/
  pending : List HostEvent
  /-- The model's own: what the host's reads returned, newest first (R11; log entry 4). -/
  answers : List Answer
  deriving DecidableEq, Repr

/-- Why a step stops. -/
inductive Fault where
  /-- Raised by a host read, by `ENCM` or by `LOC` on a buffer byte that nothing has written since hardware reset:
  "A model gives such a byte no value and treats a read of it, by the host or by a command, as a fault of the host
  sequence (toward unprovable)" (20_memory R46). Safe: the hardware returns some byte and goes on (log entry 5). -/
  | unwrittenByte (sp : Space) (a : Nat)
  deriving DecidableEq, Repr

/-- Why an action is no step of the model. -/
inductive Refusal where
  /-- Raised by an arm of `exec` whose instruction has no meaning yet; no arm is left. Safe. -/
  | notModelled (mnemonic : String)
  /-- Raised by a host register action with an index above 15: "A register index above 15 does not exist: the model
  refuses the action" (10_state R23). Safe. -/
  | noSuchRegister (i : Nat)
  /-- Raised by a host byte access at or beyond the buffer's size: "outside the block: the model refuses it (it has no
  step)" (10_state R11). Safe. -/
  | noSuchAddress (sp : Space) (a : Nat)
  deriving DecidableEq, Repr

/-- The machine after hardware reset, 10_state R31: every register as the table says, `MARKER` holding "data", no
buffer byte with a value, no host action pending (70_reset R201: the block is idle). -/
def State.reset : State where
  cfg := resetConfig
  status := 0x00000000#32
  sample := 0x0000#16
  code := 0x00#8
  marker := 0x61746164#32
  offset := 0x00000000#32
  ilen := 0x00000000#32
  src := 0x00000000#32
  dst := 0x00000000#32
  plen := 0x00000000#32
  ibuf := []
  obuf := []
  pending := []
  answers := []

end Sys2Proof.Machine
end

