-- ==== Sys2Proof/Machine/Flags.lean ====
section
/-! DEFINITION. The two flags of the block, both fields of `STATUS` (10_state R14, R28), and the error codes
(60_exceptions R180). -/

namespace Sys2Proof.Machine

/-- The synchronous errors of the block; "There are exactly three" (60_exceptions R180). -/
inductive ErrKind where
  | illegal
  | bounds
  | len
  deriving DecidableEq, Repr

/-- The code in `STATUS.ERR` (60_exceptions R180). -/
def ErrKind.errCode : ErrKind → BitVec 4
  | .illegal => 1#4
  | .bounds => 2#4
  | .len => 3#4

/-- The field `ERR = STATUS[7:4]` of a status word (10_state R14). -/
def errOf (st : Word) : BitVec 4 := st.extractLsb' 4 4

/-- The field `FOUND = STATUS[0]` of a status word (10_state R14). -/
def foundOf (st : Word) : Bool := st.getLsbD 0

/-- A status word with `ERR` replaced, every other bit kept (R14). -/
def putErr (e : BitVec 4) (st : Word) : Word := (st &&& 0xFFFFFF0F#32) ||| (e.setWidth 32 <<< 4)

/-- A status word with `FOUND` replaced, every other bit kept (R14). -/
def putFound (f : Bool) (st : Word) : Word := (st &&& 0xFFFFFFFE#32) ||| (BitVec.ofBool f).setWidth 32

/-- `STATUS.ERR`. -/
def State.err (s : State) : BitVec 4 := errOf s.status

/-- `STATUS.FOUND`. -/
def State.found (s : State) : Bool := foundOf s.status

/-- `STATUS.ERR <- e`. -/
def State.setErr (e : BitVec 4) (s : State) : State := { s with status := putErr e s.status }

/-- `STATUS.FOUND <- f`. -/
def State.setFound (f : Bool) (s : State) : State := { s with status := putFound f s.status }

/-- A command that succeeds writes `ERR` to 0 (10_state R28). -/
def succeed (s : State) : State := s.setErr 0#4

end Sys2Proof.Machine
end

