-- ==== Sys2Proof/Machine/Ops.lean ====
section
/-! DEFINITION. The named operations over buffers and registers: bytes and `MemRead`, `MemWrite` (20_memory R51), the
register slots as the host sees them (10_state R12 to R24), raising an error (60_exceptions R182), and the register
values of reset (10_state R31). -/

namespace Sys2Proof.Machine

/-- One byte of a buffer: its value, or none where nothing has written it (20_memory R46). -/
def Memory.read : Memory → Nat → Option Byte
  | [], _ => none
  | (b, v) :: m, a => if a = b then some v else Memory.read m a

/-- `S[a] <- v` (00_scope R7), keeping the addresses strictly rising. -/
def Memory.write : Memory → Nat → Byte → Memory
  | [], a, v => [(a, v)]
  | (b, w) :: m, a, v =>
    if a < b then (a, v) :: (b, w) :: m
    else if a = b then (a, v) :: m
    else (b, w) :: Memory.write m a v

/-- Every address of the list is at or above `lo`, and they rise strictly. -/
def Memory.risingFrom : Nat → Memory → Bool
  | _, [] => true
  | lo, (b, _) :: m => decide (lo ≤ b) && Memory.risingFrom (b + 1) m

/-- The canonical form: addresses strictly rising. (An unlisted byte has no value, so no entry can equal it.) -/
def Memory.wf (m : Memory) : Bool := Memory.risingFrom 0 m

/-- Every listed address lies below `size` (20_memory R40). -/
def Memory.below (size : Nat) (m : Memory) : Bool := m.all (fun c => decide (c.1 < size))

/-- The `n` bytes from `a` on, in ascending order, or the address of the first that has no value. -/
def Memory.readBytes (m : Memory) (a : Nat) : Nat → Except Nat (List Byte)
  | 0 => .ok []
  | n + 1 =>
    match m.read a with
    | none => .error a
    | some b =>
      match Memory.readBytes m (a + 1) n with
      | .error e => .error e
      | .ok bs => .ok (b :: bs)

/-- The bytes stored at `a`, `a+1`, and so on. -/
def Memory.writeBytes (m : Memory) (a : Nat) : List Byte → Memory
  | [] => m
  | b :: bs => Memory.writeBytes (m.write a b) (a + 1) bs

/-- `MemRead(S, a, n)` (20_memory R51): the bytes assembled little-endian. -/
def memRead (m : Memory) (a n : Nat) : Except Nat Nat :=
  match m.readBytes a n with
  | .error e => .error e
  | .ok bs => .ok (leNat bs)

/-- `MemWrite(S, a, n, v)` (20_memory R51): `S[a+k] <- v[8k+7 : 8k]`. -/
def memWrite (m : Memory) (a n v : Nat) : Memory := m.writeBytes a (leBytes n v)

/-- The buffer of a space. -/
def State.buf (s : State) : Space → Memory
  | .ibuf => s.ibuf
  | .obuf => s.obuf

/-- The state with the buffer of a space replaced. -/
def State.setBuf (s : State) (sp : Space) (m : Memory) : State :=
  match sp with
  | .ibuf => { s with ibuf := m }
  | .obuf => { s with obuf := m }

/-- Raising an error (60_exceptions R182): "`STATUS.ERR <- code(E_X)`. Nothing else changes". There is no handler and
no return from it (R188). -/
def raiseErr (e : ErrKind) (s : State) : State := s.setErr e.errCode

/-- The slot of a register index, if there is one (10_state R12, R23). -/
def slotOf (i : Nat) : Option Slot :=
  match i with
  | 0 => some .cmd
  | 1 => some .status
  | 2 => some .sample
  | 3 => some .code
  | 4 => some .marker
  | 5 => some .offset
  | 6 => some .ilen
  | 7 => some .src
  | 8 => some .dst
  | 9 => some .plen
  | _ => if i < 16 then some .reserved else none

/-- The index of a named slot (10_state R12); for `reserved`, the first of them. -/
def slotIndex : Slot → Nat
  | .cmd => 0
  | .status => 1
  | .sample => 2
  | .code => 3
  | .marker => 4
  | .offset => 5
  | .ilen => 6
  | .src => 7
  | .dst => 8
  | .plen => 9
  | .reserved => 10

/-- What a host read of a slot returns (10_state R13 to R23): `CMD` and the reserved slots read 0, bits that are not
implemented read 0 (R12), `SAMPLE` and `CODE` are zero-extended (R15, R16). -/
def State.readSlot (s : State) : Slot → Word
  | .cmd => 0
  | .status => s.status &&& 0x000000F1#32
  | .sample => zext32 s.sample
  | .code => zext32 s.code
  | .marker => s.marker
  | .offset => s.offset
  | .ilen => s.ilen
  | .src => s.src
  | .dst => s.dst
  | .plen => s.plen
  | .reserved => 0

/-- What a host write does to a slot other than `CMD` (10_state R14 to R24): the read-only slots and the reserved ones
ignore it, `SAMPLE` keeps bits [15:0]. (A write of `CMD` executes the word, R13: HostActions.lean.) -/
def State.writeSlot (s : State) (v : Word) : Slot → State
  | .cmd => s
  | .status => s
  | .sample => { s with sample := v.extractLsb' 0 16 }
  | .code => s
  | .marker => { s with marker := v }
  | .offset => s
  | .ilen => { s with ilen := v }
  | .src => { s with src := v }
  | .dst => { s with dst := v }
  | .plen => { s with plen := v }
  | .reserved => s

/-- Every register at the value of the "after `RST`" column of 10_state R31 (43_control_commands R152). The buffers and
the configuration stay. -/
def resetRegisters (s : State) : State :=
  { s with
    status := 0x00000000#32
    sample := 0x0000#16
    code := 0x00#8
    marker := 0x61746164#32
    offset := 0#32
    ilen := 0#32
    src := 0#32
    dst := 0#32
    plen := 0#32 }

/-- Hardware reset of a machine that is on (70_reset R200): the registers as after `RST`, every buffer byte without a
value. -/
def hardwareResetState (s : State) : State := { resetRegisters s with ibuf := [], obuf := [] }

end Sys2Proof.Machine
end

