-- ==== Sys2Proof/Machine/Operands.lean ====
section
/-! DEFINITION. How the commands get their operands (30_encoding R64, R65): registers fixed per command, the 16-bit
immediate of `ENCI`, two bytes of `IBUF`, the four marker bytes. -/

namespace Sys2Proof.Machine

/-- The operand of `ENC`: `SAMPLE[15:0]` (41_sample_encoder R115). -/
def sampleOperand (s : State) : Sample := s.sample

/-- The operand of `ENCI`: `imm16`, with no scaling and no reordering (30_encoding R64). -/
def immOperand (imm16 : Sample) : Sample := imm16

/-- The operand of `ENCM`: the sample at byte address `SRC` of `IBUF`, `MemRead(IBUF, SRC, 2)`; `IBUF[SRC]` is the low
byte and `SRC` may be odd (41_sample_encoder R117, 20_memory R41, R42). -/
def bufferOperand (s : State) : Except Nat Sample :=
  match memRead s.ibuf s.src.toNat 2 with
  | .error a => .error a
  | .ok v => .ok (BitVec.ofNat 16 v)

/-- The marker bytes in address order: `m[k] = MARKER[8k+7 : 8k]` (10_state R17). -/
def markerBytes (w : Word) : List Byte :=
  [w.extractLsb' 0 8, w.extractLsb' 8 8, w.extractLsb' 16 8, w.extractLsb' 24 8]

/-- "`ILEN > IBUF_SIZE`" (20_memory R45). -/
def ilenTooLong (s : State) : Bool := decide (s.cfg.ibufSize < s.ilen.toNat)

/-- The three checks of `ENCM`, in the order of its pseudocode, the sum "in 33 bits, no wrap" (41_sample_encoder R117,
20_memory R45). -/
def encmOutOfBounds (s : State) : Bool :=
  ilenTooLong s || decide (s.ilen.toNat < s.src.toNat + 2) || decide (s.cfg.obufSize ≤ s.dst.toNat)

end Sys2Proof.Machine
end

