-- ==== Sys2Proof/Machine/Control.lean ====
section
/-! DEFINITION. The control commands `NOP` and `RST` (43_control_commands R150 to R152). -/

namespace Sys2Proof.Machine

/-- `NOP` (R151): `STATUS.ERR <- 0`, nothing else. -/
def execNop (s : State) : Host.Outcome State Fault Refusal := .next (succeed s)

/-- `RST` (R152): every register slot to its reset value; the buffers and the table stay. -/
def execRst (s : State) : Host.Outcome State Fault Refusal := .next (resetRegisters s)

end Sys2Proof.Machine
end

