-- ==== Sys2Proof/Machine/Encoder.lean ====
section
/-! DEFINITION. The Sample Encoder: the function `ULAW` step by step (41_sample_encoder R100 to R109) and the commands
`ENC`, `ENCI`, `ENCM` (R115 to R117). -/

namespace Sys2Proof.Machine

/-- `CLIP`, 00_scope R5. -/
def clipCeiling : Nat := 32635

/-- `BIAS`, 00_scope R5. -/
def bias : Nat := 132

/-- Step 1 (R101): the sign flag, from bit 15 of the sample only. -/
def signFlag (c : Config) (s : Sample) : Byte := if s.msb then 0x80#8 ^^^ c.signNonneg else c.signNonneg

/-- Step 2 (R102): the absolute value, exact: 32768 for -32768. -/
def magnitude (s : Sample) : Nat := (sext16 s).natAbs

/-- Step 3 (R103): saturation. -/
def clipped (s : Sample) : Nat := min (magnitude s) clipCeiling

/-- Step 4 (R104): bias. -/
def biased (s : Sample) : Nat := clipped s + bias

/-- "The index `b >> 7` ... lies in 1 .. 255" (R105): inside the table. -/
theorem biased_index_lt (s : Sample) : biased s >>> 7 < 256 := by
  have h : biased s ≤ 32767 := by unfold biased clipped clipCeiling bias; omega
  rw [Nat.shiftRight_eq_div_pow]
  omega

/-- Step 5 (R105): the exponent, looked up with `b >> 7`. -/
def exponent (c : Config) (s : Sample) : BitVec 3 := c.ctab[biased s >>> 7]'(biased_index_lt s)

/-- Step 6 (R106): the mantissa, `(b >> (e + 3)) & 0x0F`. -/
def mantissa (c : Config) (s : Sample) : Nat := (biased s >>> ((exponent c s).toNat + 3)) &&& 0x0F

/-- Step 7 (R107): `sign | (e << 4) | m`. -/
def packed (c : Config) (s : Sample) : Byte :=
  signFlag c s ||| ((exponent c s).setWidth 8 <<< 4) ||| BitVec.ofNat 8 (mantissa c s)

/-- `ULAW(s)` (R100): step 8 complements the packed byte (R108). -/
def ulaw (c : Config) (s : Sample) : Byte := ~~~ packed c s

/-- `ENC` (R115): `CODE <- ULAW(sext_16(SAMPLE[15:0])); STATUS.ERR <- 0`. -/
def execEnc (s : State) : Host.Outcome State Fault Refusal :=
  .next (succeed { s with code := ulaw s.cfg (sampleOperand s) })

/-- `ENCI imm16` (R116): `CODE <- ULAW(sext_16(imm16)); STATUS.ERR <- 0`. `SAMPLE` is not touched. -/
def execEnci (imm16 : Sample) (s : State) : Host.Outcome State Fault Refusal :=
  .next (succeed { s with code := ulaw s.cfg (immOperand imm16) })

/-- `ENCM` (R117): the checks, then read, encode, store, advance both addresses. An operand byte without a value is a
fault (20_memory R46; log entry 5). -/
def execEncm (s : State) : Host.Outcome State Fault Refusal :=
  if encmOutOfBounds s then .next (raiseErr .bounds s)
  else
    match bufferOperand s with
    | .error a => .fault (.unwrittenByte .ibuf a)
    | .ok x =>
      .next (succeed
        { s with
          obuf := memWrite s.obuf s.dst.toNat 1 (ulaw s.cfg x).toNat
          code := ulaw s.cfg x
          src := s.src + 2
          dst := s.dst + 1 })

end Sys2Proof.Machine
end

