-- ==== Sys2Proof/Machine/Header.lean ====
section
/-! DEFINITION. The Header Synthesizer: the 58 bytes of `HEADER(n)` (42_header_synthesizer R130 to R139) and the command
`HDR` (R142). -/

namespace Sys2Proof.Machine

/-- "RIFF" (00_scope R6). -/
def tagRiff : List Byte := [0x52, 0x49, 0x46, 0x46]
/-- "WAVE" (00_scope R6). -/
def tagWave : List Byte := [0x57, 0x41, 0x56, 0x45]
/-- "fmt ", the fourth byte a space (00_scope R6). -/
def tagFmt : List Byte := [0x66, 0x6D, 0x74, 0x20]
/-- "fact" (00_scope R6). -/
def tagFact : List Byte := [0x66, 0x61, 0x63, 0x74]
/-- "data" (00_scope R6). -/
def tagData : List Byte := [0x64, 0x61, 0x74, 0x61]

/-- `HDR_LEN`, 00_scope R5. -/
def headerLength : Nat := 58
/-- `FORMAT_CODE`, 00_scope R5. -/
def formatCode : Nat := 7
/-- `CHANNELS`, 00_scope R5. -/
def channels : Nat := 1
/-- `SAMPLE_RATE`, 00_scope R5. -/
def sampleRate : Nat := 8000
/-- `BITS`, 00_scope R5. -/
def bitsPerSample : Nat := 8
/-- "byte rate = sample_rate × channels × bits/8" (R132). -/
def byteRate : Nat := sampleRate * channels * bitsPerSample / 8
/-- "block align = channels × bits/8" (R132). -/
def blockAlign : Nat := channels * bitsPerSample / 8
/-- The fmt sub-chunk length (R135). -/
def fmtLength : Nat := 18
/-- The fact sub-chunk length (R136). -/
def factLength : Nat := 4

/-- `HEADER(n)` (R130); defined by the spec for `n <= 0xFFFFFFCD` (R140), which `HDR` checks. -/
def header (n : Nat) : List Byte :=
  tagRiff ++ le32 (n + (headerLength - 8)) ++ tagWave ++
    (tagFmt ++ le32 fmtLength ++ le16 formatCode ++ le16 channels ++ le32 sampleRate ++ le32 byteRate ++
      le16 blockAlign ++ le16 bitsPerSample ++ le16 0) ++
    (tagFact ++ le32 factLength ++ le32 n) ++ (tagData ++ le32 n)

/-- The largest payload length whose chunk size fits 32 bits (R140). -/
def plenLimit : Nat := 0xFFFFFFCD

/-- `HDR` (R142): no check of `OBUF_SIZE`, "`OBUF_SIZE >= 58` is a parameter constraint" (20_memory R45). -/
def execHdr (s : State) : Host.Outcome State Fault Refusal :=
  if plenLimit < s.plen.toNat then .next (raiseErr .len s)
  else .next (succeed { s with obuf := s.obuf.writeBytes 0 (header s.plen.toNat) })

end Sys2Proof.Machine
end

