-- ==== Sys2Proof/Machine/Locator.lean ====
section
/-! DEFINITION. The Chunk Locator: the function `LOCATE` on a byte sequence (40_chunk_locator R80 to R83), the same
search over a buffer in which bytes may have no value, and the command `LOC` (R84). -/

namespace Sys2Proof.Machine

/-- `LOCATE(buf, len, m)` on the bytes `buf` from position `p` on (R80): the first place the marker stands, ascending. -/
def locateFrom (m : List Byte) : List Byte → Nat → Option Nat
  | [], _ => none
  | b :: bs, p => if m.isPrefixOf (b :: bs) then some p else locateFrom m bs (p + 1)

/-- `LOCATE(buf, len, m)` (R80): `none` is `notfound`. -/
def locate (m buf : List Byte) : Option Nat := locateFrom m buf 0

/-- The comparison at one position of R80's pseudocode, byte by byte, ending at the first that differs. A byte without
a value ends it with that byte's address (20_memory R46). -/
def matchAt (mem : Memory) : List Byte → Nat → Except Nat Bool
  | [], _ => .ok true
  | b :: bs, p =>
    match mem.read p with
    | none => .error p
    | some v => if v = b then matchAt mem bs (p + 1) else .ok false

/-- The loop of R80's pseudocode over a buffer: `n` positions from `p` on, ascending, ending at the first match. -/
def searchFrom (mem : Memory) (m : List Byte) : Nat → Nat → Except Nat (Option Nat)
  | 0, _ => .ok none
  | n + 1, p =>
    match matchAt mem m p with
    | .error a => .error a
    | .ok true => .ok (some p)
    | .ok false => searchFrom mem m n (p + 1)

/-- `LOCATE(IBUF, len, m)`: the positions 0 .. len-4, none when `len < 4` (R80, R82). -/
def search (mem : Memory) (m : List Byte) (len : Nat) : Except Nat (Option Nat) := searchFrom mem m (len - 3) 0

/-- `LOC` (R84). Absence is a result, not an error (R85). A byte without a value that the search visits is a fault
(20_memory R46; log entries 5 and 6). -/
def execLoc (s : State) : Host.Outcome State Fault Refusal :=
  if ilenTooLong s then .next (raiseErr .bounds s)
  else
    match search s.ibuf (markerBytes s.marker) s.ilen.toNat with
    | .error a => .fault (.unwrittenByte .ibuf a)
    | .ok (some p) => .next (succeed (State.setFound true { s with offset := BitVec.ofNat 32 p }))
    | .ok none => .next (succeed (State.setFound false { s with offset := 0#32 }))

end Sys2Proof.Machine
end

