-- ==== Sys2Proof/Machine/Dispatch.lean ====
section
/-! DEFINITION. The one map from a command to its meaning, an arm per constructor of `Instr`. -/

namespace Sys2Proof.Machine

def exec (i : Instr) (s : State) : Host.Outcome State Fault Refusal :=
  match i with
  | .nop => Sys2Proof.Machine.execNop s
  | .enc => Sys2Proof.Machine.execEnc s
  | .enci imm16 => Sys2Proof.Machine.execEnci imm16 s
  | .encm => Sys2Proof.Machine.execEncm s
  | .loc => Sys2Proof.Machine.execLoc s
  | .hdr => Sys2Proof.Machine.execHdr s
  | .rst => Sys2Proof.Machine.execRst s

end Sys2Proof.Machine
end

