-- ==== Sys2Proof/Machine/HostActions.lean ====
section
/-! DEFINITION. What each host action does (10_state R11 to R24), the execution of a command word (10_state R13,
30_encoding R66), hardware reset (70_reset R200). -/

namespace Sys2Proof.Machine

/-- A word written to `CMD` is decoded and executed (10_state R13); one that no row of the opcode map covers raises
`E_ILLEGAL` before anything else (60_exceptions R181). -/
def runCommand (w : Word) (s : State) : Host.Outcome State Fault Refusal :=
  match decode w with
  | .ok i => exec i s
  | .error _ => .next (raiseErr .illegal s)

/-- `HostWriteReg(i, v)` (10_state R11, R13 to R24). -/
def hostWriteReg (i : Nat) (v : Word) (s : State) : Host.Outcome State Fault Refusal :=
  match slotOf i with
  | none => .refused (.noSuchRegister i)
  | some .cmd => runCommand v s
  | some slot => .next (s.writeSlot v slot)

/-- `HostReadReg(i)` (10_state R11): the state keeps the value returned; nothing of the block changes. -/
def hostReadReg (i : Nat) (s : State) : Host.Outcome State Fault Refusal :=
  match slotOf i with
  | none => .refused (.noSuchRegister i)
  | some slot => .next { s with answers := .reg i (s.readSlot slot) :: s.answers }

/-- `HostWriteByte(S, a, v)` (10_state R11). -/
def hostWriteByte (sp : Space) (a : Nat) (v : Byte) (s : State) : Host.Outcome State Fault Refusal :=
  if a < sp.size s.cfg then .next (s.setBuf sp ((s.buf sp).write a v))
  else .refused (.noSuchAddress sp a)

/-- `HostReadByte(S, a)` (10_state R11); a byte without a value is a fault of the host sequence (20_memory R46). -/
def hostReadByte (sp : Space) (a : Nat) (s : State) : Host.Outcome State Fault Refusal :=
  if a < sp.size s.cfg then
    match (s.buf sp).read a with
    | some v => .next { s with answers := .byte sp a v :: s.answers }
    | none => .fault (.unwrittenByte sp a)
  else .refused (.noSuchAddress sp a)

/-- One event from outside, as one atomic step (20_memory R43, R47). -/
def perform (e : HostEvent) (s : State) : Host.Outcome State Fault Refusal :=
  match e with
  | .writeReg i v => hostWriteReg i v s
  | .readReg i => hostReadReg i s
  | .writeByte sp a v => hostWriteByte sp a v s
  | .readByte sp a => hostReadByte sp a s
  | .hardwareReset => .next (hardwareResetState s)

/-- The host's next event, or idling when there is none: "the block executes nothing until the host writes `CMD`"
(70_reset R201), "the block simply keeps its state" (R211). -/
def nextEvent (s : State) : Host.Outcome State Fault Refusal :=
  match s.pending with
  | [] => .next s
  | e :: rest => perform e { s with pending := rest }

end Sys2Proof.Machine
end

