-- ==== Sys2Proof/Machine/Step.lean ====
section
/-! DEFINITION. One step: the oldest pending host event (20_memory R47). The block fetches nothing (10_state R29):
a command comes with the host's write to `CMD`. -/

namespace Sys2Proof.Machine

/-- One step of the machine. -/
def step (s : State) : Host.Outcome State Fault Refusal := nextEvent s

/-- The state in which the host's next action is the write of this word to `CMD` (10_state R13), so that the next step
executes it; nothing else changes (log entry 3). Every command has 32 bits (30_encoding R60). -/
def State.withFetchWord (s : State) (nbits w : Nat) : State :=
  { s with pending := .writeReg 0 (BitVec.ofNat 32 (w % 2 ^ nbits)) :: s.pending }

end Sys2Proof.Machine
end

