-- ==== Sys2Proof/Machine/HostSequences.lean ====
section
/-! DEFINITION. Host sequences (45_host_sequences R160) as a language of their own: what the host does next, chosen from
what it has read, until it is done and names a range of `OBUF`, or aborts. `TRANSCODE` (R161) and `CONCAT` (R166, R167)
are sequences of it, and they run over the same `perform` a step uses. All of this is the host's, outside `step` (log
entry 14). -/

namespace Sys2Proof.Machine

/-- "A host sequence is a finite list of host actions performed in order, one at a time ... The host may compute with
the values it has read and may choose its next action, or stop, from them" (R160). `done` names the output. -/
inductive HostSequence where
  | done (output : OutRange)
  | aborted (reason : AbortReason)
  | act (e : HostEvent) (rest : HostSequence)
  | readReg (i : Nat) (rest : Word → HostSequence)
  | readByte (sp : Space) (a : Nat) (rest : Byte → HostSequence)

/-- What follows an action that was performed; a fault or a refusal ends everything (log entry 14). -/
def andThen {α β : Type} (o : Host.Outcome α Fault Refusal) (k : α → Host.Outcome β Fault Refusal) :
    Host.Outcome β Fault Refusal :=
  match o with
  | .next a => k a
  | .fault r => .fault r
  | .refused r => .refused r

/-- A list of host actions performed in order, one at a time (R160). -/
def performAll : List HostEvent → State → Host.Outcome State Fault Refusal
  | [], s => .next s
  | e :: es, s => andThen (perform e s) (fun s' => performAll es s')

/-- The value the host's newest register read returned (log entry 4); asked only right after such a read. -/
def newestWord (s : State) : Word :=
  match s.answers with
  | .reg _ v :: _ => v
  | _ => 0

/-- The value the host's newest byte read returned (log entry 4); asked only right after such a read. -/
def newestByte (s : State) : Byte :=
  match s.answers with
  | .byte _ _ v :: _ => v
  | _ => 0

/-- The output, "which the host then reads out with `HostReadByte`" (R160): `n` bytes of `OBUF` from `a` on. -/
def readOut : Nat → Nat → State → Host.Outcome (List Byte × State) Fault Refusal
  | _, 0, s => .next ([], s)
  | a, n + 1, s =>
    andThen (hostReadByte .obuf a s) (fun s' =>
      andThen (readOut (a + 1) n s') (fun r => .next (newestByte s' :: r.1, r.2)))

/-- A sequence from a state: how it ends, and the state it leaves (R160). -/
def runSequence : HostSequence → State → Host.Outcome (SeqResult × State) Fault Refusal
  | .done r, s => andThen (readOut r.first r.len s) (fun o => .next (.done o.1, o.2))
  | .aborted reason, s => .next (.aborted reason, s)
  | .act e rest, s => andThen (perform e s) (fun s' => runSequence rest s')
  | .readReg i rest, s => andThen (hostReadReg i s) (fun s' => runSequence (rest (newestWord s')) s')
  | .readByte sp a rest, s => andThen (hostReadByte sp a s) (fun s' => runSequence (rest (newestByte s')) s')

/-! Pieces of sequences. -/

/-- Actions one after another, then the rest. -/
def actions (es : List HostEvent) (rest : HostSequence) : HostSequence := es.foldr .act rest

/-- `x = rd REG`. -/
def withSlot (slot : Slot) (k : Word → HostSequence) : HostSequence := .readReg (slotIndex slot) k

/-- `rb S[a]`, `rb S[a+1]`, and so on: `n` bytes. -/
def withBytes (sp : Space) : Nat → Nat → (List Byte → HostSequence) → HostSequence
  | _, 0, k => k []
  | a, n + 1, k => .readByte sp a (fun v => withBytes sp (a + 1) n (fun vs => k (v :: vs)))

/-- `wb S[a], b0`, `wb S[a+1], b1`, and so on. -/
def storeEvents (sp : Space) : Nat → List Byte → List HostEvent
  | _, [] => []
  | a, b :: bs => .writeByte sp a b :: storeEvents sp (a + 1) bs

/-- The write of a command to `CMD` (30_encoding R67). -/
def commandEvent (i : Instr) : HostEvent := .writeReg 0 (encode i)

/-- `wr REG, v` (30_encoding R67). -/
def wrEvent (slot : Slot) (v : Nat) : HostEvent := .writeReg (slotIndex slot) (BitVec.ofNat 32 v)

/-- `load IBUF, ...` (30_encoding R68): the bytes from address 0 on, then `wr ILEN, L`. -/
def loadEvents (bs : List Byte) : List HostEvent := storeEvents .ibuf 0 bs ++ [wrEvent .ilen bs.length]

/-- "data" as `MARKER` holds it (10_state R17). -/
def dataMarker : Nat := 0x61746164

/-- `rd STATUS`; the sequence aborts unless `STATUS.ERR = 0` (R162; 30_encoding R68). -/
def checkErr (r : AbortReason) (k : HostSequence) : HostSequence :=
  withSlot .status (fun st => if errOf st = 0 then k else .aborted r)

/-- A command, then the test of `ERR` (R161 T10, T11; R162). -/
def checkedCommand (i : Instr) (r : AbortReason) (k : HostSequence) : HostSequence :=
  .act (commandEvent i) (checkErr r k)

/-- `wr MARKER`, `loc`, `rd STATUS`, abort unless found, `rd OFFSET` (R161 T3 to T5; R166 C4, C5; R162). -/
def findData (k : Nat → HostSequence) : HostSequence :=
  actions [wrEvent .marker dataMarker, commandEvent .loc]
    (withSlot .status (fun st =>
      if errOf st = 0 ∧ foundOf st = true then withSlot .offset (fun off => k off.toNat) else .aborted .malformed))

/-- R161 T10: `n` times `encm` and the test of `ERR`. -/
def encodeLoop : Nat → HostSequence → HostSequence
  | 0, k => k
  | n + 1, k => checkedCommand .encm .internal (encodeLoop n k)

/-- The end of both macros (R161 T11, T12; R166 C8, C9): `wr PLEN, n`, `hdr`, the test of `ERR`, and the output
`OBUF[0 .. 58+n-1]` for the rest to name. -/
def emitHeader (n : Nat) (k : OutRange → HostSequence) : HostSequence :=
  .act (wrEvent .plen n) (checkedCommand .hdr .internal (k ⟨0, headerLength + n⟩))

/-- R161 T5 to T12, with the marker found at `off` in a container of `len` bytes. -/
def transcodeAt (c : Config) (len off : Nat) (k : OutRange → HostSequence) : HostSequence :=
  let start := off + 8
  if len < start then .aborted .malformed
  else
    let n := (len - start) / 2
    if c.obufSize < headerLength + n then .aborted .capacity
    else actions [wrEvent .src start, wrEvent .dst headerLength] (encodeLoop n (emitHeader n k))

/-- `TRANSCODE(in, L)` (R161) on a machine with these parameters; `k` goes on from the output it names. -/
def transcodeSequence (c : Config) (input : List Byte) (k : OutRange → HostSequence) : HostSequence :=
  if c.ibufSize < input.length then .aborted .capacity
  else actions (commandEvent .rst :: loadEvents input) (findData (fun off => transcodeAt c input.length off k))

/-- `extent(X, LX, off)` (R167): the payload starts at `off + 8` and has the declared length. -/
def withExtent (len off : Nat) (k : Nat → Nat → HostSequence) : HostSequence :=
  if len < off + 8 then .aborted .malformed
  else
    withBytes .ibuf (off + 4) 4 (fun bs =>
      if len < off + 8 + leNat bs then .aborted .malformed else k (off + 8) (leNat bs))

/-- R166 C7: `wb OBUF[to+k], (rb IBUF[from+k])`, for `n` bytes. -/
def copyLoop : Nat → Nat → Nat → HostSequence → HostSequence
  | 0, _, _, k => k
  | n + 1, src, dst, k =>
    .readByte .ibuf src (fun v => .act (.writeByte .obuf dst v) (copyLoop n (src + 1) (dst + 1) k))

/-- R166 C2 to C7 for one input: its payload goes to `OBUF` behind the `total` bytes already there. -/
def appendPayload (c : Config) (x : List Byte) (total : Nat) (k : Nat → HostSequence) : HostSequence :=
  if c.ibufSize < x.length then .aborted .capacity
  else
    actions (loadEvents x)
      (findData (fun off =>
        withExtent x.length off (fun first n =>
          if c.obufSize < headerLength + total + n then .aborted .capacity
          else copyLoop n first (headerLength + total) (k (total + n)))))

/-- `CONCAT(A, LA, B, LB)` (R166) on a machine with these parameters; `k` goes on from the output it names. -/
def concatSequence (c : Config) (a b : List Byte) (k : OutRange → HostSequence) : HostSequence :=
  .act (commandEvent .rst)
    (appendPayload c a 0 (fun total => appendPayload c b total (fun total' => emitHeader total' k)))

/-- `TRANSCODE` as a whole sequence. -/
def runTranscode (input : List Byte) (s : State) : Host.Outcome (SeqResult × State) Fault Refusal :=
  runSequence (transcodeSequence s.cfg input .done) s

/-- `CONCAT` as a whole sequence. -/
def runConcat (a b : List Byte) (s : State) : Host.Outcome (SeqResult × State) Fault Refusal :=
  runSequence (concatSequence s.cfg a b .done) s

end Sys2Proof.Machine
end

