-- ==== Sys2Proof/Machine/Assembler.lean ====
section
/-! DEFINITION. The text form of host sequences (30_encoding R67, R68): what a line does, and how it is read from
characters (log entry 15). -/

namespace Sys2Proof.Machine

/-- The host actions of a line that is a fixed list of them (R67, R68); none for `check` and the two macros, whose
actions depend on what the host reads. -/
def AsmLine.events : AsmLine → Option (List HostEvent)
  | .wr reg v => some [.writeReg (slotIndex reg) (BitVec.ofInt 32 v)]
  | .rd reg => some [.readReg (slotIndex reg)]
  | .wb sp a v => some [.writeByte sp a (BitVec.ofNat 8 v)]
  | .rb sp a => some [.readByte sp a]
  | .nop => some [commandEvent .nop]
  | .enc => some [commandEvent .enc]
  | .enci imm => some [commandEvent (.enci (BitVec.ofInt 16 imm))]
  | .encm => some [commandEvent .encm]
  | .loc => some [commandEvent .loc]
  | .hdr => some [commandEvent .hdr]
  | .rst => some [commandEvent .rst]
  | .marker b0 b1 b2 b3 => some [wrEvent .marker (leNat [b0, b1, b2, b3])]
  | .load bs => some (loadEvents bs)
  | .encs v => some [.writeReg (slotIndex .sample) (zext32 (BitVec.ofInt 16 v)), commandEvent .enc]
  | .check => none
  | .transcode _ => none
  | .concat _ _ => none

/-- One line, before the rest `k` of the sequence. `named` is the output range the last macro line before this one
named; a macro line puts its own in that place, any other line passes it on (log entry 21). -/
def AsmLine.before (c : Config) (l : AsmLine) (named : OutRange) (k : OutRange → HostSequence) : HostSequence :=
  match l with
  | .check => checkErr .failedCheck (k named)
  | .transcode input => transcodeSequence c input k
  | .concat a b => concatSequence c a b k
  | l => actions (l.events.getD []) (k named)

/-- The lines in their order, then the end (R160). -/
def linesBefore (c : Config) : List AsmLine → OutRange → (OutRange → HostSequence) → HostSequence
  | [], named, k => k named
  | l :: ls, named, k => l.before c named (fun r => linesBefore c ls r k)

/-- The sequence a text stands for, with the range of `OBUF` it names as its output when it is done (R160). The text form
has no line that names one, so the range `output` stands beside the lines, as 95_test_vectors writes "done; output =
OBUF[0 .. 61]" under them. DESIGN CHOICE, safe (log entry 21): where none is given, the output is the range the last macro
line named, and the empty range where no line is a macro. -/
def linesSequence (c : Config) (ls : List AsmLine) (output : Option OutRange) : HostSequence :=
  linesBefore c ls ⟨0, 0⟩ (fun named => .done (output.getD named))

/-- A text run from a state. -/
def runLines (ls : List AsmLine) (output : Option OutRange) (s : State) :
    Host.Outcome (SeqResult × State) Fault Refusal :=
  runSequence (linesSequence s.cfg ls output) s

/-! Reading a line from its characters. -/

/-- What separates words: spaces, tabs and commas (R67 is silent; log entry 15). -/
def isSeparator (c : Char) : Bool := c == ' ' || c == '\t' || c == ','

/-- The words of a line; `;` starts a comment (R67). -/
def asmWords : List Char → List Char → List (List Char)
  | cur, [] => if cur.isEmpty then [] else [cur.reverse]
  | cur, c :: cs =>
    if c = ';' then (if cur.isEmpty then [] else [cur.reverse])
    else if isSeparator c then (if cur.isEmpty then asmWords [] cs else cur.reverse :: asmWords [] cs)
    else asmWords (c :: cur) cs

/-- One digit in base 10 or 16. -/
def digitOf (base : Nat) (c : Char) : Option Nat :=
  let n := c.toNat
  let d := if 48 ≤ n ∧ n ≤ 57 then n - 48
    else if 97 ≤ n ∧ n ≤ 102 then n - 87
    else if 65 ≤ n ∧ n ≤ 70 then n - 55
    else base
  if d < base then some d else none

/-- The digits of a number, most significant first. -/
def digitsFrom (base : Nat) : Nat → List Char → Option Nat
  | acc, [] => some acc
  | acc, c :: cs =>
    match digitOf base c with
    | some d => digitsFrom base (acc * base + d) cs
    | none => none

/-- "Numbers are decimal or `0x` hexadecimal" (R67). -/
def natOf (cs : List Char) : Option Nat :=
  match cs with
  | [] => none
  | '0' :: 'x' :: c :: rest => digitsFrom 16 0 (c :: rest)
  | c :: rest => digitsFrom 10 0 (c :: rest)

/-- A number with a sign, as `enci -1000` has it (R64, R67). -/
def intOf (cs : List Char) : Option Int :=
  match cs with
  | '-' :: rest => (natOf rest).map (fun n => - (n : Int))
  | cs => (natOf cs).map (fun n => (n : Int))

/-- The slot names (10_state R12). DESIGN CHOICE, safe (log entry 20): the reserved slots 10 to 15 have no name in the text;
R67's "any slot name" does not say, and R12 calls all six of them "reserved". -/
def slotNames : List (List Char × Slot) :=
  [ (['C', 'M', 'D'], .cmd),
    (['S', 'T', 'A', 'T', 'U', 'S'], .status),
    (['S', 'A', 'M', 'P', 'L', 'E'], .sample),
    (['C', 'O', 'D', 'E'], .code),
    (['M', 'A', 'R', 'K', 'E', 'R'], .marker),
    (['O', 'F', 'F', 'S', 'E', 'T'], .offset),
    (['I', 'L', 'E', 'N'], .ilen),
    (['S', 'R', 'C'], .src),
    (['D', 'S', 'T'], .dst),
    (['P', 'L', 'E', 'N'], .plen) ]

/-- A slot from its name. -/
def slotNamed (cs : List Char) : Option Slot := (slotNames.find? (fun r => r.1 == cs)).map (fun r => r.2)

/-- The number before the closing bracket of `IBUF[a]`. -/
def bracketed (cs : List Char) : Option Nat :=
  match cs.reverse with
  | ']' :: rest => natOf rest.reverse
  | _ => none

/-- `IBUF[a]` or `OBUF[a]` (R67). -/
def placeOf (cs : List Char) : Option (Space × Nat) :=
  match cs with
  | 'I' :: 'B' :: 'U' :: 'F' :: '[' :: rest => (bracketed rest).map (fun a => (.ibuf, a))
  | 'O' :: 'B' :: 'U' :: 'F' :: '[' :: rest => (bracketed rest).map (fun a => (.obuf, a))
  | _ => none

/-- The bytes of a `load` line. -/
def bytesOf : List (List Char) → Option (List Byte)
  | [] => some []
  | w :: ws =>
    match natOf w, bytesOf ws with
    | some n, some bs => if n < 256 then some (BitVec.ofNat 8 n :: bs) else none
    | _, _ => none

/-- The byte of a character of a `marker` line: its ASCII code (00_scope R6). -/
def asciiByte (c : Char) : Byte := BitVec.ofNat 8 c.toNat

/-- The rest of a line is blank or a comment. -/
def blankRest (cs : List Char) : Bool := (asmWords [] cs).isEmpty

/-- The operand of a `marker` line: four ASCII characters in double quotes (R68). R68 does not say what may stand before
the opening quote: any separators or none. DESIGN CHOICE, safe (log entry 15). -/
def markerOf (cs : List Char) : Option AsmLine :=
  match cs.dropWhile isSeparator with
  | '"' :: a :: b :: c :: d :: '"' :: rest =>
    if [a, b, c, d].all (fun x => decide (x.toNat < 128)) && blankRest rest then
      some (.marker (asciiByte a) (asciiByte b) (asciiByte c) (asciiByte d))
    else none
  | _ => none

/-- A line of words (R67, R68). -/
def lineOf : List (List Char) → Option AsmLine
  | [['w', 'r'], reg, v] =>
    match slotNamed reg, natOf v with
    | some slot, some n => some (.wr slot n)
    | _, _ => none
  | [['r', 'd'], reg] => (slotNamed reg).map .rd
  | [['w', 'b'], place, v] =>
    match placeOf place, natOf v with
    | some (sp, a), some n => some (.wb sp a n)
    | _, _ => none
  | [['r', 'b'], place] => (placeOf place).map (fun p => .rb p.1 p.2)
  | [['n', 'o', 'p']] => some .nop
  | [['e', 'n', 'c']] => some .enc
  | [['e', 'n', 'c', 'i'], v] => (intOf v).map .enci
  | [['e', 'n', 'c', 'm']] => some .encm
  | [['l', 'o', 'c']] => some .loc
  | [['h', 'd', 'r']] => some .hdr
  | [['r', 's', 't']] => some .rst
  | ['l', 'o', 'a', 'd'] :: ['I', 'B', 'U', 'F'] :: ws => (bytesOf ws).map .load
  | [['e', 'n', 'c', 's'], v] => (intOf v).map .encs
  | [['c', 'h', 'e', 'c', 'k']] => some .check
  | _ => none

/-- One line of text: `some none` is a blank line or a comment, `none` is no line of R67 or R68. The mnemonic may be in
upper case: "they mean the same" (R67). What may stand before it R67 does not say: any separators or none, for a `marker`
line (whose operand is read from its quotes, not as words) as for every other. DESIGN CHOICE, safe (log entry 15). -/
def parseLine (cs : List Char) : Option (Option AsmLine) :=
  let body := cs.dropWhile isSeparator
  let first := body.takeWhile (fun c => !isSeparator c && c != ';' && c != '"')
  if first.map Char.toLower = ['m', 'a', 'r', 'k', 'e', 'r'] then (markerOf (body.drop first.length)).map some
  else
    match asmWords [] body with
    | [] => some none
    | w :: ws => (lineOf (w.map Char.toLower :: ws)).map some

/-- A text, line by line, each line legal for this machine (R67, R68; WellFormed). -/
def assemble (c : Config) : List (List Char) → Option (List AsmLine)
  | [] => some []
  | cs :: rest =>
    match parseLine cs, assemble c rest with
    | some (some l), some ls => if l.wf c then some (l :: ls) else none
    | some none, some ls => some ls
    | _, _ => none

end Sys2Proof.Machine
end

