-- ==== Sys2Proof/Safety.lean ====
section
/-! DEFINITION. What counts as a safe run: the invariant every reachable state keeps, the conditions on which a command
or a host action completes (70_reset R203), and when a step goes on. -/

namespace Sys2Proof.Machine

/-- What every state of a run satisfies: the parameters are legal (00_scope R5), the buffers are in canonical form and
inside their sizes (20_memory R40), the reserved bits of `STATUS` are 0 and `ERR` is one of the codes 0 to 3 (10_state
R14), `OFFSET` lies in the input buffer when `FOUND` = 1 and is 0 when `FOUND` = 0 (10_state R18, R31; 40 R84). -/
structure State.Inv (s : State) : Prop where
  cfg_legal : s.cfg.legal = true
  ibuf_wf : s.ibuf.wf = true
  obuf_wf : s.obuf.wf = true
  ibuf_below : s.ibuf.below s.cfg.ibufSize = true
  obuf_below : s.obuf.below s.cfg.obufSize = true
  status_reserved : s.status &&& 0xFFFFFF0E#32 = 0#32
  err_code : s.err.toNat ≤ 3
  offset_found : s.found = true → s.offset.toNat + 4 ≤ s.cfg.ibufSize
  offset_not_found : s.found = false → s.offset = 0#32

/-- The `n` bytes of a buffer from `a` on all have a value. -/
def Memory.hasBytes (m : Memory) (a n : Nat) : Prop := ∀ k, k < n → ∃ v, m.read (a + k) = some v

/-- What the host owes a command before it writes the word (70_reset R203): for `ENCM` the two sample bytes, if its
bounds checks pass, for `LOC` the bytes below `ILEN`; the other commands need nothing. -/
def State.Ready (s : State) : Instr → Prop
  | .nop => True
  | .enc => True
  | .enci _ => True
  | .encm => encmOutOfBounds s = false → s.ibuf.hasBytes s.src.toNat 2
  | .loc => ilenTooLong s = false → s.ibuf.hasBytes 0 s.ilen.toNat
  | .hdr => True
  | .rst => True

/-- What a host event needs to complete: a target (10_state R11), a value where it reads a byte (20_memory R46), and
for a command what `Ready` says. -/
def HostEvent.Safe (s : State) : HostEvent → Prop
  | .writeReg i v => i < 16 ∧ (i = 0 → ∀ c, decode v = .ok c → s.Ready c)
  | .readReg i => i < 16
  | .writeByte sp a _ => a < sp.size s.cfg
  | .readByte sp a => a < sp.size s.cfg ∧ ∃ v, (s.buf sp).read a = some v
  | .hardwareReset => True

/-- The outcome is a next state. -/
def Continues (o : Host.Outcome State Fault Refusal) : Prop := ∃ t, o = .next t

end Sys2Proof.Machine
end

