-- ==== Sys2Proof/Certificates/Slice0/Obligations.lean ====
section
/-! DEFINITION. The statements about the block, each a `def Obligations.<Name> : Prop`. Status words are spelled as masks:
`st &&& 0xFFFFFF0F` is `st` with `ERR` = 0, `||| 0x10`, `0x20`, `0x30` then put the codes 1, 2, 3 there, and
`st &&& 0xFFFFFF0E` has `FOUND` = 0 as well. -/

open Sys2Proof Sys2Proof.Machine

namespace Sys2Proof.Claims

/-- The rows of the opcode map as 30_encoding R63 prints them: match, mask, and the command of a word of the row. -/
def mapRows : List (Word × Word × (Word → Instr)) :=
  [ (0x00000000#32, 0xFFFFFFFF#32, fun _ => .nop),
    (0x01000000#32, 0xFFFFFFFF#32, fun _ => .enc),
    (0x02000000#32, 0xFFFF0000#32, fun w => .enci (w.setWidth 16)),
    (0x03000000#32, 0xFFFFFFFF#32, fun _ => .encm),
    (0x04000000#32, 0xFFFFFFFF#32, fun _ => .loc),
    (0x05000000#32, 0xFFFFFFFF#32, fun _ => .hdr),
    (0x0F000000#32, 0xFFFFFFFF#32, fun _ => .rst) ]

/-- The parameters this hardware fixes: `SIGN_NONNEG` = 0x80 and the table of 10_state R27. -/
def ThisHardware (c : Config) : Prop := c.signNonneg = 0x80#8 ∧ c.ctab = ctabR27

/-- The four marker bytes stand at address `p` of a buffer (40 R80, 10_state R17). -/
def MarkerAt (m : Memory) (marker : Word) (p : Nat) : Prop :=
  ∀ k, k < 4 → m.read (p + k) = some (marker.extractLsb' (8 * k) 8)

/-- The four bytes of `m` stand at position `p` of a byte sequence (40 R80). -/
def BytesAt (buf m : List Byte) (p : Nat) : Prop := p + 4 ≤ buf.length ∧ ∀ k, k < 4 → buf[p + k]? = m[k]?

/-- Byte `k` of a 32-bit field, little-endian. -/
def fieldByte (v : Word) (k : Nat) : Byte := v.extractLsb' (8 * k) 8

/-- The 58 header bytes as the last column of 42 R131 prints them; `n` and `n + 50` are 32-bit fields. -/
def headerLayout (n : Word) : List Byte :=
  [ 0x52, 0x49, 0x46, 0x46,
    fieldByte (n + 50) 0, fieldByte (n + 50) 1, fieldByte (n + 50) 2, fieldByte (n + 50) 3,
    0x57, 0x41, 0x56, 0x45,
    0x66, 0x6D, 0x74, 0x20,
    0x12, 0x00, 0x00, 0x00,
    0x07, 0x00,
    0x01, 0x00,
    0x40, 0x1F, 0x00, 0x00,
    0x40, 0x1F, 0x00, 0x00,
    0x01, 0x00,
    0x08, 0x00,
    0x00, 0x00,
    0x66, 0x61, 0x63, 0x74,
    0x04, 0x00, 0x00, 0x00,
    fieldByte n 0, fieldByte n 1, fieldByte n 2, fieldByte n 3,
    0x64, 0x61, 0x74, 0x61,
    fieldByte n 0, fieldByte n 1, fieldByte n 2, fieldByte n 3 ]

/-- Two outcomes of the same kind: the same fault, the same refusal, or next states related by `R`. -/
def Agree (R : State → State → Prop) (o o' : Host.Outcome State Fault Refusal) : Prop :=
  match o, o' with
  | .next t, .next t' => R t t'
  | .fault a, .fault b => a = b
  | .refused a, .refused b => a = b
  | _, _ => False

/-- The implemented bits of a slot, column three of the table of 10_state R12. -/
def implementedBits (i : Nat) : Word :=
  match i with
  | 1 => 0x000000F1#32
  | 2 => 0x0000FFFF#32
  | 3 => 0x000000FF#32
  | 4 => 0xFFFFFFFF#32
  | 5 => 0xFFFFFFFF#32
  | 6 => 0xFFFFFFFF#32
  | 7 => 0xFFFFFFFF#32
  | 8 => 0xFFFFFFFF#32
  | 9 => 0xFFFFFFFF#32
  | _ => 0x00000000#32

/-- What a slot reads after either reset, the two middle columns of the table of 10_state R31. -/
def resetValue : Slot → Word
  | .cmd => 0x00000000#32
  | .status => 0x00000000#32
  | .sample => 0x00000000#32
  | .code => 0x00000000#32
  | .marker => 0x61746164#32
  | .offset => 0x00000000#32
  | .ilen => 0x00000000#32
  | .src => 0x00000000#32
  | .dst => 0x00000000#32
  | .plen => 0x00000000#32
  | .reserved => 0x00000000#32

/-- `TRANSCODE`'s payload start and sample count (45 R161 T5, T7). -/
def sampleCount (len off : Nat) : Nat := (len - (off + 8)) / 2

/-- A container holds the payload `p` the way `CONCAT` reads it: "data" first stands at `off`, the four bytes behind it
declare the payload's length, and the payload follows inside the container (45 R166, R167). -/
def HoldsPayload (x : List Byte) (off : Nat) (p : List Byte) : Prop :=
  locate tagData x = some off ∧ off + 8 + p.length ≤ x.length ∧
    leNat ((x.drop (off + 4)).take 4) = p.length ∧ (x.drop (off + 8)).take p.length = p

end Sys2Proof.Claims

open Sys2Proof.Claims

/-! Encoding. -/

/-- Words of the opcode map written out from 30_encoding R63 and R64, with two the map leaves out (R66). -/
def Obligations.SpecWordsDecode : Prop :=
  decode 0x00000000#32 = .ok .nop ∧ decode 0x01000000#32 = .ok .enc ∧ decode 0x0200FC18#32 = .ok (.enci 0xFC18#16) ∧
    decode 0x03000000#32 = .ok .encm ∧ decode 0x04000000#32 = .ok .loc ∧ decode 0x05000000#32 = .ok .hdr ∧
    decode 0x0F000000#32 = .ok .rst ∧ decode 0x06000000#32 = .error (.unassignedOpcode 0x06#8) ∧
    decode 0x02010000#32 = .error (.nonzeroZeroField 0x02#8)

/-- R63: a word is a legal command exactly when one row covers it, it is that row's command, and no two rows cover the
same word. -/
def Obligations.LegalExactlyByOneRow : Prop :=
  (∀ (w : Word) (i : Instr), decode w = .ok i ↔ ∃ r ∈ mapRows, w &&& r.2.1 = r.1 ∧ i = r.2.2 w) ∧
    ∀ w : Word, mapRows.countP (fun r => decide (w &&& r.2.1 = r.1)) ≤ 1

/-- Every command, its immediate at every value: decoding its word gives it back (R60 to R64). -/
def Obligations.DecodeInvertsEncode : Prop := ∀ i : Instr, decode (encode i) = .ok i

/-- Each legal word has one meaning: encoding what it decodes to gives the word back (R60 to R64). -/
def Obligations.EncodeInvertsDecode : Prop := ∀ (w : Word) (i : Instr), decode w = .ok i → encode i = w

/-- R64: the immediate is word[15:0], read as two's complement. -/
def Obligations.EnciImmediateIsSignedLowHalf : Prop :=
  ∀ w : Word, w.toNat / 65536 = 0x0200 →
    ∃ imm, decode w = .ok (.enci imm) ∧
      sext16 imm = if w.toNat % 65536 < 32768 then (w.toNat % 65536 : Int) else (w.toNat % 65536 : Int) - 65536

/-- R66, its count: "Of the 2^32 possible words, 6 + 65536 = 65542 are legal". -/
def Obligations.LegalWordCount : Prop := Nat.card { w : Word // ∃ i, decode w = .ok i } = 65542

/-! The step and the host's actions. -/

/-- A word written to `CMD` that decodes to a command is that command's execution, on the state with the event taken
from the queue (10_state R13). The queue is the model's own (log entry 3). -/
def Obligations.StepRunsTheCommand : Prop :=
  ∀ (s : State) (w : Word) (rest : List HostEvent) (i : Instr),
    s.pending = .writeReg 0 w :: rest → decode w = .ok i → step s = exec i { s with pending := rest }

/-- R181: a word no row of the map covers sets `ERR` to 1 and changes nothing else. -/
def Obligations.IllegalWordSetsErrOnly : Prop :=
  ∀ (s : State) (w : Word), (∀ r ∈ mapRows, w &&& r.2.1 ≠ r.1) →
    perform (.writeReg 0 w) s = .next { s with status := (s.status &&& 0xFFFFFF0F#32) ||| 0x10#32 }

/-- With no host event left the block keeps its state (70_reset R201, R211; log entry 3). -/
def Obligations.IdleKeepsTheState : Prop := ∀ s : State, s.pending = [] → step s = .next s

/-- R47: as many steps as there are host events perform them in order, one at a time, each on the state the one before
left. The queue is the model's own (log entry 3). -/
def Obligations.StepsPerformEventsInOrder : Prop :=
  ∀ (es : List HostEvent) (s : State),
    core.run es.length { s with pending := es } = performAll es { s with pending := [] }

/-- R24: what a host write does to each slot but `CMD`; and of everything the host can do, only a write of `CMD` and a
hardware reset change `STATUS`. -/
def Obligations.HostWriteRegEffects : Prop :=
  ∀ (s : State) (v : Word),
    perform (.writeReg 1 v) s = .next s ∧
    perform (.writeReg 2 v) s = .next { s with sample := v.setWidth 16 } ∧
    perform (.writeReg 3 v) s = .next s ∧
    perform (.writeReg 4 v) s = .next { s with marker := v } ∧
    perform (.writeReg 5 v) s = .next s ∧
    perform (.writeReg 6 v) s = .next { s with ilen := v } ∧
    perform (.writeReg 7 v) s = .next { s with src := v } ∧
    perform (.writeReg 8 v) s = .next { s with dst := v } ∧
    perform (.writeReg 9 v) s = .next { s with plen := v } ∧
    ∀ (e : HostEvent) (t : State), perform e s = .next t → (∀ w, e ≠ .writeReg 0 w) → e ≠ .hardwareReset →
      t.status = s.status

/-- R12 to R22: what a host read of each slot returns (the newest answer); nothing else changes. The list of answers is
the model's own (log entry 4). -/
def Obligations.HostReadRegReturns : Prop :=
  ∀ (s : State),
    perform (.readReg 0) s = .next { s with answers := .reg 0 0#32 :: s.answers } ∧
    perform (.readReg 1) s = .next { s with answers := .reg 1 (s.status &&& 0x000000F1#32) :: s.answers } ∧
    perform (.readReg 2) s = .next { s with answers := .reg 2 (s.sample.setWidth 32) :: s.answers } ∧
    perform (.readReg 3) s = .next { s with answers := .reg 3 (s.code.setWidth 32) :: s.answers } ∧
    perform (.readReg 4) s = .next { s with answers := .reg 4 s.marker :: s.answers } ∧
    perform (.readReg 5) s = .next { s with answers := .reg 5 s.offset :: s.answers } ∧
    perform (.readReg 6) s = .next { s with answers := .reg 6 s.ilen :: s.answers } ∧
    perform (.readReg 7) s = .next { s with answers := .reg 7 s.src :: s.answers } ∧
    perform (.readReg 8) s = .next { s with answers := .reg 8 s.dst :: s.answers } ∧
    perform (.readReg 9) s = .next { s with answers := .reg 9 s.plen :: s.answers }

/-- R12: for every slot, a bit that is not implemented reads 0, whatever the state and whatever is written (a write of
`CMD`, slot 0, is a command and is left to the other statements). -/
def Obligations.UnimplementedBitsReadZero : Prop :=
  ∀ (s : State) (i : Nat), i < 16 →
    (∃ v, perform (.readReg i) s = .next { s with answers := .reg i v :: s.answers } ∧
      v &&& ~~~ implementedBits i = 0#32) ∧
    ∀ w, i ≠ 0 → ∃ t, perform (.writeReg i w) s = .next t ∧
      perform (.writeReg i (w &&& implementedBits i)) s = .next t

/-- A register the host may write reads back what was written, in its implemented bits (10_state R15, R17, R19 to R22). -/
def Obligations.HostWriteThenRead : Prop :=
  ∀ (s : State) (i : Nat) (w : Word), i ∈ [2, 4, 6, 7, 8, 9] →
    performAll [.writeReg i w, .readReg i] s =
      andThen (perform (.writeReg i w) s)
        (fun t => .next { t with answers := .reg i (w &&& implementedBits i) :: s.answers })

/-- R23: the reserved slots read 0 and ignore writes; an index above 15 is refused. -/
def Obligations.ReservedAndMissingSlots : Prop :=
  ∀ (s : State) (i : Nat) (v : Word),
    (10 ≤ i → i ≤ 15 → perform (.writeReg i v) s = .next s ∧
      perform (.readReg i) s = .next { s with answers := .reg i 0#32 :: s.answers }) ∧
    (15 < i → perform (.writeReg i v) s = .refused (.noSuchRegister i) ∧
      perform (.readReg i) s = .refused (.noSuchRegister i))

/-- R11, bytes: a host byte write inside the buffer completes, the byte reads back, every other byte of both buffers and
every register stays; at or beyond the size it is refused. -/
def Obligations.HostWriteByteEffects : Prop :=
  ∀ (s : State) (sp : Space) (a : Nat) (v : Byte),
    (a < sp.size s.cfg → ∃ t, perform (.writeByte sp a v) s = .next t ∧ (t.buf sp).read a = some v ∧
      (∀ sp' b, (sp' ≠ sp ∨ b ≠ a) → (t.buf sp').read b = (s.buf sp').read b) ∧
      t = { s with ibuf := t.ibuf, obuf := t.obuf }) ∧
    (sp.size s.cfg ≤ a → perform (.writeByte sp a v) s = .refused (.noSuchAddress sp a))

/-- R11, bytes: a host byte read returns the byte and changes nothing of the block; a byte without a value is a fault
(20_memory R46, log entry 5); at or beyond the size it is refused. -/
def Obligations.HostReadByteReturns : Prop :=
  ∀ (s : State) (sp : Space) (a : Nat),
    (∀ v, a < sp.size s.cfg → (s.buf sp).read a = some v →
      perform (.readByte sp a) s = .next { s with answers := .byte sp a v :: s.answers }) ∧
    (a < sp.size s.cfg → (s.buf sp).read a = none →
      perform (.readByte sp a) s = .fault (.unwrittenByte sp a)) ∧
    (sp.size s.cfg ≤ a → perform (.readByte sp a) s = .refused (.noSuchAddress sp a))

/-- R200 with the table of R31: power-on, hardware reset and `RST` leave every register slot reading the table's value;
after power-on and hardware reset no buffer byte has a value, `RST` leaves both buffers; neither reset touches the
parameters (the compression table among them). -/
def Obligations.BothResets : Prop :=
  State.reset.cfg.ctab = ctabR27 ∧ ∀ (s : State), ∃ h r,
    perform .hardwareReset s = .next h ∧ exec .rst s = .next r ∧
    (∀ slot : Slot, State.reset.readSlot slot = resetValue slot ∧ h.readSlot slot = resetValue slot ∧
      r.readSlot slot = resetValue slot) ∧
    (∀ sp a, (State.reset.buf sp).read a = none ∧ (h.buf sp).read a = none ∧
      (r.buf sp).read a = (s.buf sp).read a) ∧
    h.cfg = s.cfg ∧ r.cfg = s.cfg

/-! The commands. -/

/-- R151. -/
def Obligations.NopClearsErr : Prop :=
  encode .nop = 0x00000000#32 ∧
    ∀ s : State, exec .nop s = .next { s with status := s.status &&& 0xFFFFFF0F#32 }

/-- R152, with "the two must agree" against 10_state R31. -/
def Obligations.RstResetsEveryRegister : Prop :=
  encode .rst = 0x0F000000#32 ∧
    ∀ s : State, exec .rst s =
      .next { cfg := s.cfg, status := 0x00000000#32, sample := 0x0000#16, code := 0x00#8, marker := 0x61746164#32,
              offset := 0#32, ilen := 0#32, src := 0#32, dst := 0#32, plen := 0#32, ibuf := s.ibuf, obuf := s.obuf,
              pending := s.pending, answers := s.answers }

/-- R115, with its corner cases and its example on this hardware. -/
def Obligations.EncEncodesSample : Prop :=
  encode .enc = 0x01000000#32 ∧
    (∀ s : State, exec .enc s =
      .next { s with code := ulaw s.cfg s.sample, status := s.status &&& 0xFFFFFF0F#32 }) ∧
    ∀ c : Config, ThisHardware c → ulaw c 0x8000#16 = 0x80#8 ∧ ulaw c 0x0000#16 = 0x7F#8 ∧
      ulaw c 0xFFFF#16 = 0xFF#8 ∧ biased 0x03E8#16 = 1132 ∧ (exponent c 0x03E8#16).toNat = 3 ∧
      mantissa c 0x03E8#16 = 1 ∧ packed c 0x03E8#16 = 0xB1#8 ∧ ulaw c 0x03E8#16 = 0x4E#8

/-- R116, with its example and corner cases on this hardware; `SAMPLE` stays; a word with this opcode is legal exactly
when bits [23:16] are zero. -/
def Obligations.EnciEncodesImmediate : Prop :=
  (∀ imm : Sample, encode (.enci imm) = 0x02000000#32 ||| imm.setWidth 32) ∧
    (∀ w : Word, w.extractLsb' 24 8 = 0x02#8 →
      if w.extractLsb' 16 8 = 0x00#8 then decode w = .ok (.enci (w.extractLsb' 0 16)) else ∀ i, decode w ≠ .ok i) ∧
    (∀ (s : State) (imm : Sample), exec (.enci imm) s =
      .next { s with code := ulaw s.cfg imm, status := s.status &&& 0xFFFFFF0F#32 }) ∧
    ∀ c : Config, ThisHardware c → ulaw c 0xFC18#16 = 0xCE#8 ∧ ulaw c 0x8000#16 = 0x80#8 ∧
      ulaw c 0x0000#16 = 0x7F#8 ∧ ulaw c 0xFFFF#16 = 0xFF#8

/-- R117: out of bounds, only `ERR` changes, to 2; in bounds, with both sample bytes written, the code goes to
`OBUF[DST]` and to `CODE`, `SRC` advances by 2 and `DST` by 1 without wrapping, every other byte and register stays; the
example's code on this hardware. -/
def Obligations.EncmEncodesOneSample : Prop :=
  encode .encm = 0x03000000#32 ∧ (∀ c : Config, ThisHardware c → ulaw c (0x7F#8 ++ 0xFF#8) = 0x00#8) ∧
    ∀ s : State, s.cfg.legal = true →
      ((s.cfg.ibufSize < s.ilen.toNat ∨ s.ilen.toNat < s.src.toNat + 2 ∨ s.cfg.obufSize ≤ s.dst.toNat) →
        exec .encm s = .next { s with status := (s.status &&& 0xFFFFFF0F#32) ||| 0x20#32 }) ∧
      ∀ lo hi : Byte, s.ilen.toNat ≤ s.cfg.ibufSize → s.src.toNat + 2 ≤ s.ilen.toNat →
        s.dst.toNat < s.cfg.obufSize → s.ibuf.read s.src.toNat = some lo →
        s.ibuf.read (s.src.toNat + 1) = some hi →
        ∃ t, exec .encm s = .next t ∧
          t.code = ulaw s.cfg (hi ++ lo) ∧ t.src.toNat = s.src.toNat + 2 ∧ t.dst.toNat = s.dst.toNat + 1 ∧
          t.obuf.read s.dst.toNat = some (ulaw s.cfg (hi ++ lo)) ∧
          (∀ a, a ≠ s.dst.toNat → t.obuf.read a = s.obuf.read a) ∧
          t = { s with code := t.code, src := t.src, dst := t.dst, obuf := t.obuf,
                       status := s.status &&& 0xFFFFFF0F#32 }

/-- R84: too long an `ILEN` changes only `ERR`, to 2; otherwise, with the bytes the search visits written, the lowest
position of the marker goes to `OFFSET` with `FOUND` = 1, or `OFFSET` = 0 and `FOUND` = 0 when there is none. -/
def Obligations.LocFindsTheLowestMarker : Prop :=
  encode .loc = 0x04000000#32 ∧
    ∀ s : State,
      (s.cfg.ibufSize < s.ilen.toNat →
        exec .loc s = .next { s with status := (s.status &&& 0xFFFFFF0F#32) ||| 0x20#32 }) ∧
      (s.ilen.toNat ≤ s.cfg.ibufSize →
        (∀ p, p + 4 ≤ s.ilen.toNat → s.ibuf.hasBytes 0 p → MarkerAt s.ibuf s.marker p →
          (∀ q, q < p → ¬ MarkerAt s.ibuf s.marker q) →
          exec .loc s = .next { s with offset := BitVec.ofNat 32 p,
                                       status := (s.status &&& 0xFFFFFF0E#32) ||| 1#32 }) ∧
        (s.ibuf.hasBytes 0 s.ilen.toNat → (∀ p, p + 4 ≤ s.ilen.toNat → ¬ MarkerAt s.ibuf s.marker p) →
          exec .loc s = .next { s with offset := 0#32, status := s.status &&& 0xFFFFFF0E#32 }))

/-- R82: fewer than four valid bytes hold no marker, whatever the bytes are, written or not; the last candidate is
`len - 4`, the only one when `len` is 4. -/
def Obligations.LocShortBufferFindsNothing : Prop :=
  (∀ m buf : List Byte, m.length = 4 → buf.length < 4 → locate m buf = none) ∧
    (∀ (m buf : List Byte) (p : Nat), m.length = 4 → locate m buf = some p → p ≤ buf.length - 4 ∧ 4 ≤ buf.length) ∧
    ∀ s : State, s.ilen.toNat < 4 → s.ilen.toNat ≤ s.cfg.ibufSize →
      exec .loc s = .next { s with offset := 0#32, status := s.status &&& 0xFFFFFF0E#32 }

/-- R80 and R81: `LOCATE` is the least position at which the four bytes stand, and `notfound` when they stand
nowhere. -/
def Obligations.LocateIsTheLeastPosition : Prop :=
  ∀ m buf : List Byte, m.length = 4 →
    (∀ p, locate m buf = some p ↔ BytesAt buf m p ∧ ∀ q, q < p → ¬ BytesAt buf m q) ∧
    (locate m buf = none ↔ ∀ p, ¬ BytesAt buf m p)

/-- When every byte below `ILEN` has a value, the search of `LOC` over the buffer is the function `LOCATE` of those
bytes (40 R84 over R80). -/
def Obligations.LocRefinesLocate : Prop :=
  ∀ (s : State) (buf : List Byte), s.ilen.toNat ≤ s.cfg.ibufSize → s.ibuf.readBytes 0 s.ilen.toNat = .ok buf →
    ∃ t, exec .loc s = .next t ∧ t.err = 0 ∧
      (t.found = true ↔ ∃ p, locate (markerBytes s.marker) buf = some p) ∧
      t.offset = BitVec.ofNat 32 ((locate (markerBytes s.marker) buf).getD 0)

/-- R142 with the bytes of R131: a length that does not fit changes only `ERR`, to 3; otherwise the 58 header bytes go to
`OBUF[0 .. 57]` and every other byte and register stays. -/
def Obligations.HdrWritesTheLayout : Prop :=
  encode .hdr = 0x05000000#32 ∧
    ∀ s : State,
      (0xFFFFFFCD < s.plen.toNat →
        exec .hdr s = .next { s with status := (s.status &&& 0xFFFFFF0F#32) ||| 0x30#32 }) ∧
      (s.plen.toNat ≤ 0xFFFFFFCD →
        ∃ t, exec .hdr s = .next t ∧
          (∀ a, a < 58 → t.obuf.read a = (headerLayout s.plen)[a]?) ∧
          (∀ a, 58 ≤ a → t.obuf.read a = s.obuf.read a) ∧
          t = { s with obuf := t.obuf, status := s.status &&& 0xFFFFFF0F#32 })

/-- R133: 58 bytes, the chunk size is `n + 50`, the data length is `n`, for every `n` in range; the sample count is `n`
too (R136). -/
def Obligations.HeaderSizeFields : Prop :=
  ∀ n : Nat, n ≤ 0xFFFFFFCD →
    (header n).length = 58 ∧
    leNat (((header n).drop 4).take 4) = n + 50 ∧
    leNat (((header n).drop 46).take 4) = n ∧
    leNat (((header n).drop 54).take 4) = n

/-- Where a command's operand byte has no value, the model stops (20_memory R46; log entries 5 and 6): `ENCM` on the
first such byte of its sample, `LOC` on the first such byte of the buffer, if the marker does not stand below it. -/
def Obligations.UnwrittenOperandByteFaults : Prop :=
  ∀ s : State,
    (s.ilen.toNat ≤ s.cfg.ibufSize → s.src.toNat + 2 ≤ s.ilen.toNat → s.dst.toNat < s.cfg.obufSize →
      (s.ibuf.read s.src.toNat = none → exec .encm s = .fault (.unwrittenByte .ibuf s.src.toNat)) ∧
      (∀ lo, s.ibuf.read s.src.toNat = some lo → s.ibuf.read (s.src.toNat + 1) = none →
        exec .encm s = .fault (.unwrittenByte .ibuf (s.src.toNat + 1)))) ∧
    ∀ p, s.ilen.toNat ≤ s.cfg.ibufSize → p + 4 ≤ s.ilen.toNat → s.ibuf.hasBytes 0 p → s.ibuf.read p = none →
      (∀ q, q + 4 ≤ p → ¬ MarkerAt s.ibuf s.marker q) → exec .loc s = .fault (.unwrittenByte .ibuf p)

/-! The whole machine. -/

/-- The invariant of Safety.lean holds after reset. -/
def Obligations.ResetMeetsTheInvariant : Prop := State.reset.Inv

/-- Every step, of every state that meets the invariant, whatever the host does next, keeps it. -/
def Obligations.StepKeepsTheInvariant : Prop := ∀ s t : State, s.Inv → step s = .next t → t.Inv

/-- The parameters, the compression table among them (10_state R27), change in no step. -/
def Obligations.StepKeepsTheParameters : Prop := ∀ s t : State, step s = .next t → t.cfg = s.cfg

/-- R182: after a command that failed, nothing is changed but `ERR`. -/
def Obligations.FailedCommandChangesOnlyErr : Prop :=
  ∀ (s t : State) (w : Word), perform (.writeReg 0 w) s = .next t → t.err ≠ 0 →
    t = { s with status := (s.status &&& 0xFFFFFF0F#32) ||| (t.err.setWidth 32 <<< 4) }

/-- R180: which command leaves which code, and when; codes 4 to 15 are never produced; no code after reset. -/
def Obligations.ErrorCodesAndTheirCauses : Prop :=
  State.reset.err = 0 ∧
  ∀ (s t : State) (w : Word), perform (.writeReg 0 w) s = .next t →
    (t.err = 0 ∨ t.err = 1 ∨ t.err = 2 ∨ t.err = 3) ∧
    (t.err = 1 ↔ ∀ i, decode w ≠ .ok i) ∧
    (t.err = 2 ↔
      ((decode w = .ok .loc ∨ decode w = .ok .encm) ∧ s.cfg.ibufSize < s.ilen.toNat) ∨
      (decode w = .ok .encm ∧ (s.ilen.toNat < s.src.toNat + 2 ∨ s.cfg.obufSize ≤ s.dst.toNat))) ∧
    (t.err = 3 ↔ decode w = .ok .hdr ∧ 0xFFFFFFCD < s.plen.toNat)

/-- `FOUND` changes only by a `LOC` that succeeds and by `RST` (10_state R28). -/
def Obligations.FoundChangesOnlyByLocAndRst : Prop :=
  ∀ (s t : State) (i : Instr), exec i s = .next t → i ≠ .rst → (i = .loc → t.err ≠ 0) → t.found = s.found

/-- No command reads `STATUS` (10_state R28): whatever it holds, the command ends the same way, in states that agree on
everything but `STATUS`, and with the same `ERR`. -/
def Obligations.StatusIsNeverRead : Prop :=
  ∀ (i : Instr) (s : State) (st : Word),
    Agree (fun t t' => t' = { t with status := t'.status } ∧ t'.err = t.err) (exec i s) (exec i { s with status := st })

/-- What each command writes (10_state R33): the columns it has no W in stay. -/
def Obligations.CommandsWriteOnlyTheirColumns : Prop :=
  ∀ (i : Instr) (s t : State), exec i s = .next t →
    t.cfg = s.cfg ∧ t.ibuf = s.ibuf ∧ t.pending = s.pending ∧ t.answers = s.answers ∧
    (i ≠ .hdr → i ≠ .encm → t.obuf = s.obuf) ∧
    (i ≠ .rst → t.sample = s.sample ∧ t.marker = s.marker ∧ t.ilen = s.ilen ∧ t.plen = s.plen) ∧
    (i ≠ .rst → i ≠ .encm → t.src = s.src ∧ t.dst = s.dst) ∧
    (i ≠ .rst → i ≠ .loc → t.offset = s.offset) ∧
    (i = .nop ∨ i = .loc ∨ i = .hdr → t.code = s.code)

/-- No command reads `OBUF` (10_state R26): whatever it holds, the command ends the same way, in states that agree on
everything but `OBUF`, and each byte of `OBUF` is either kept in both or written in both with the same value. -/
def Obligations.ObufIsNeverRead : Prop :=
  ∀ (i : Instr) (s : State) (m : Memory),
    Agree (fun t t' => t' = { t with obuf := t'.obuf } ∧
        ∀ a, (t.obuf.read a = s.obuf.read a ∧ t'.obuf.read a = m.read a) ∨ t'.obuf.read a = t.obuf.read a)
      (exec i s) (exec i { s with obuf := m })

/-- The block never reads `IBUF` at or beyond `ILEN` (20_memory R45): two input buffers that agree below `ILEN` give the
same outcome of every command. -/
def Obligations.IbufBeyondIlenIsNeverRead : Prop :=
  ∀ (i : Instr) (s : State) (m : Memory), (∀ a, a < s.ilen.toNat → m.read a = s.ibuf.read a) →
    Agree (fun t t' => t' = { t with ibuf := m }) (exec i s) (exec i { s with ibuf := m })

/-- R203: when the host has established what the table asks, the command completes, and so does every host event that
has a target and a value to read. -/
def Obligations.PreparedEventsComplete : Prop :=
  (∀ (i : Instr) (s : State), s.Ready i → Continues (exec i s)) ∧
    ∀ (e : HostEvent) (s : State), e.Safe s → Continues (perform e s)

/-- The one way a command stops: `ENCM` or `LOC` on a byte of `IBUF` below `ILEN` that has no value (20_memory R46; log
entry 5). No command is refused. -/
def Obligations.CommandsStopOnlyOnUnwrittenBytes : Prop :=
  ∀ (i : Instr) (s : State), (∀ r, exec i s ≠ .refused r) ∧
    ∀ f, exec i s = .fault f → ∃ a, f = .unwrittenByte .ibuf a ∧ a < s.ilen.toNat ∧ s.ibuf.read a = none ∧
      (i = .encm ∨ i = .loc)

/-! The Sample Encoder. -/

/-- R27: the table is the position of the most significant 1 bit; entry 0 is 0. -/
def Obligations.TableIsTheLeadingBit : Prop :=
  ctabR27[0]? = some 0 ∧
    ∀ i e : Nat, 1 ≤ i → i ≤ 255 → 2 ^ e ≤ i → i < 2 ^ (e + 1) → ctabR27[i]? = some (BitVec.ofNat 3 e)

/-- R100: the eight steps in integer arithmetic, for every configuration with a legal sign flag. -/
def Obligations.UlawFollowsTheEightSteps : Prop :=
  ∀ (c : Config) (s : Sample), (c.signNonneg = 0x80#8 ∨ c.signNonneg = 0x00#8) →
    ∃ (sign b m : Nat) (e : BitVec 3),
      sign = (if s.toInt < 0 then 0x80 - c.signNonneg.toNat else c.signNonneg.toNat) ∧
      (b : Int) = min (if s.toInt < 0 then - s.toInt else s.toInt) 32635 + 132 ∧
      c.ctab[b / 128]? = some e ∧
      m = b / 2 ^ (e.toNat + 3) % 16 ∧
      (ulaw c s).toNat = 255 - (sign + 16 * e.toNat + m)

/-- R105: the exponent is the table's entry at `b >> 7`; that index lies in 1 .. 255, the biased sample in 132 .. 32767,
and with the table of R27 the exponent is the one with `2^(e+7) <= b < 2^(e+8)`. -/
def Obligations.TableIndexInRange : Prop :=
  ∀ (c : Config) (s : Sample),
    c.ctab[biased s >>> 7]? = some (exponent c s) ∧ 132 ≤ biased s ∧ biased s ≤ 32767 ∧
    1 ≤ biased s >>> 7 ∧ biased s >>> 7 ≤ 255 ∧
    (c.ctab = ctabR27 → 2 ^ ((exponent c s).toNat + 7) ≤ biased s ∧ biased s < 2 ^ ((exponent c s).toNat + 8))

/-- R110 with the closed form of R111: the complemented fields of the code byte. -/
def Obligations.CodeByteFields : Prop :=
  ∀ (c : Config) (s : Sample), ThisHardware c →
    ∃ b e m : Nat, (b : Int) = min (s.toInt.natAbs : Int) 32635 + 132 ∧ e = Nat.log 2 b - 7 ∧
      m = b / 2 ^ (e + 3) - 16 ∧ e ≤ 7 ∧ m ≤ 15 ∧
      (ulaw c s).getLsbD 7 = decide (s.toInt < 0) ∧
      ((ulaw c s).extractLsb' 4 3).toNat = 7 - e ∧
      ((ulaw c s).extractLsb' 0 4).toNat = 15 - m

/-- All 256 code bytes occur (41_sample_encoder R111), under either polarity. -/
def Obligations.EveryCodeOccurs : Prop :=
  ∀ (c : Config) (b : Byte), (c.signNonneg = 0x80#8 ∨ c.signNonneg = 0x00#8) → c.ctab = ctabR27 →
    ∃ s : Sample, ulaw c s = b

/-- R112: sign symmetry, the two most negative samples, the low seven bits by magnitude alone, and the other polarity. -/
def Obligations.UlawSignSymmetry : Prop :=
  ∀ (c : Config), (c.signNonneg = 0x80#8 ∨ c.signNonneg = 0x00#8) →
    (∀ s : Sample, 1 ≤ s.toInt → s.toInt ≤ 32767 → ulaw c (-s) = ulaw c s ^^^ 0x80#8) ∧
    ulaw c 0x8000#16 = ulaw c 0x8001#16 ∧
    (∀ s u : Sample, s.toInt.natAbs = u.toInt.natAbs →
      (ulaw c s).extractLsb' 0 7 = (ulaw c u).extractLsb' 0 7) ∧
    (∀ s u : Sample, (s.toInt < 0 ↔ u.toInt < 0) → (ulaw c s).getLsbD 7 = (ulaw c u).getLsbD 7) ∧
    ∀ s : Sample, ulaw { c with signNonneg := 0x80#8 ^^^ c.signNonneg } s = ulaw c s ^^^ 0x80#8

/-- R113: the extreme codes, under both polarities. -/
def Obligations.UlawExtremes : Prop :=
  ∀ (c : Config) (s : Sample), c.ctab = ctabR27 →
    (c.signNonneg = 0x80#8 →
      (0 ≤ s.toInt → s.toInt ≤ 3 → ulaw c s = 0x7F#8) ∧ (-3 ≤ s.toInt → s.toInt ≤ -1 → ulaw c s = 0xFF#8) ∧
      (31612 ≤ s.toInt → ulaw c s = 0x00#8) ∧ (s.toInt ≤ -31612 → ulaw c s = 0x80#8)) ∧
    (c.signNonneg = 0x00#8 →
      (0 ≤ s.toInt → s.toInt ≤ 3 → ulaw c s = 0xFF#8) ∧ (-3 ≤ s.toInt → s.toInt ≤ -1 → ulaw c s = 0x7F#8) ∧
      (31612 ≤ s.toInt → ulaw c s = 0x80#8) ∧ (s.toInt ≤ -31612 → ulaw c s = 0x00#8))

/-- A larger magnitude never gives larger low seven bits (41_sample_encoder R110; 95_test_vectors 2.1). -/
def Obligations.LowBitsFallWithMagnitude : Prop :=
  ∀ (c : Config) (s u : Sample), ThisHardware c → s.toInt.natAbs ≤ u.toInt.natAbs →
    ((ulaw c u).extractLsb' 0 7).toNat ≤ ((ulaw c s).extractLsb' 0 7).toNat

/-! Buffers. -/

/-- `MemRead` after `MemWrite` at the same place gives the value, as far as the width goes, and every byte outside the
place stays (20_memory R41, R51). -/
def Obligations.MemReadAfterMemWrite : Prop :=
  ∀ (m : Memory) (a n v : Nat),
    memRead (memWrite m a n v) a n = .ok (v % 256 ^ n) ∧
      ∀ b, (b < a ∨ a + n ≤ b) → (memWrite m a n v).read b = m.read b

/-- Every operation that stores keeps a buffer's canonical form and its bounds; the form is the model's own (log entry
5). -/
def Obligations.StoresKeepTheCanonicalForm : Prop :=
  ∀ (m : Memory) (a n v size : Nat), m.wf = true → m.below size = true → a + n ≤ size →
    (memWrite m a n v).wf = true ∧ (memWrite m a n v).below size = true

/-! Host sequences. -/

/-- `TRANSCODE` (R161, R164) from every state: done with the header for `n` and the codes of the samples in order, when
the marker is found and everything fits. Reading the output back is the host's (log entry 14). -/
def Obligations.TranscodeOutput : Prop :=
  ∀ (inp : List Byte) (s : State) (off : Nat), s.cfg.legal = true → inp.length ≤ s.cfg.ibufSize →
    locate tagData inp = some off → off + 8 ≤ inp.length →
    58 + sampleCount inp.length off ≤ s.cfg.obufSize →
    ∃ out t, runTranscode inp s = .next (.done out, t) ∧
      out.length = 58 + sampleCount inp.length off ∧
      out.take 58 = headerLayout (BitVec.ofNat 32 (sampleCount inp.length off)) ∧
      ∀ k lo hi, k < sampleCount inp.length off → inp[off + 8 + 2 * k]? = some lo →
        inp[off + 8 + 2 * k + 1]? = some hi → out[58 + k]? = some (ulaw s.cfg (hi ++ lo))

/-- `TRANSCODE` aborts (R161 T0, T4, T6, T8): too long an input, no marker, no room behind it, too small an output
buffer. -/
def Obligations.TranscodeAborts : Prop :=
  ∀ (inp : List Byte) (s : State), s.cfg.legal = true →
    (s.cfg.ibufSize < inp.length → ∃ t, runTranscode inp s = .next (.aborted .capacity, t)) ∧
    (inp.length ≤ s.cfg.ibufSize →
      (locate tagData inp = none → ∃ t, runTranscode inp s = .next (.aborted .malformed, t)) ∧
      ∀ off, locate tagData inp = some off →
        (inp.length < off + 8 → ∃ t, runTranscode inp s = .next (.aborted .malformed, t)) ∧
        (off + 8 ≤ inp.length → s.cfg.obufSize < 58 + sampleCount inp.length off →
          ∃ t, runTranscode inp s = .next (.aborted .capacity, t)))

/-- `CONCAT` (R166, R167, R169) from every state: done with the header for both lengths and payload A followed by payload
B, when both containers are well formed and everything fits. -/
def Obligations.ConcatOutput : Prop :=
  ∀ (a b pa pb : List Byte) (offA offB : Nat) (s : State), s.cfg.legal = true →
    a.length ≤ s.cfg.ibufSize → b.length ≤ s.cfg.ibufSize →
    HoldsPayload a offA pa → HoldsPayload b offB pb → 58 + pa.length + pb.length ≤ s.cfg.obufSize →
    ∃ t, runConcat a b s =
      .next (.done (headerLayout (BitVec.ofNat 32 (pa.length + pb.length)) ++ pa ++ pb), t)

/-- R170: what an earlier sequence left in the registers and the buffers changes nothing: from any two states of machines
with the same parameters, each macro ends, and with the same result. -/
def Obligations.MacrosForgetEarlierSequences : Prop :=
  ∀ (a b : List Byte) (s s' : State), s.cfg.legal = true → s'.cfg = s.cfg →
    (∃ r t t', runTranscode a s = .next (r, t) ∧ runTranscode a s' = .next (r, t')) ∧
    ∃ r t t', runConcat a b s = .next (r, t) ∧ runConcat a b s' = .next (r, t')

/-- R67: the host action of each line that writes a command, and of the immediate line for every integer it allows. -/
def Obligations.CommandLinesWriteTheirWords : Prop :=
  AsmLine.nop.events = some [.writeReg 0 0x00000000#32] ∧ AsmLine.enc.events = some [.writeReg 0 0x01000000#32] ∧
    AsmLine.encm.events = some [.writeReg 0 0x03000000#32] ∧ AsmLine.loc.events = some [.writeReg 0 0x04000000#32] ∧
    AsmLine.hdr.events = some [.writeReg 0 0x05000000#32] ∧ AsmLine.rst.events = some [.writeReg 0 0x0F000000#32] ∧
    ∀ imm : Int, -32768 ≤ imm → imm ≤ 65535 →
      (AsmLine.enci imm).events = some [.writeReg 0 (BitVec.ofInt 32 (0x02000000 + imm % 65536))]

/-- The pseudo-instruction `encs v` (R68) leaves the sample in `SAMPLE` and its code in `CODE`; `check` ends the sequence
unless `STATUS.ERR` = 0, and otherwise goes on, a read of `STATUS` later. (The output of the sequence `encs v` is the empty
range: it names none.) -/
def Obligations.EncsAndCheck : Prop :=
  (∀ (v : Int) (s : State), -32768 ≤ v → v ≤ 65535 →
    runLines [.encs v] none s = .next (.done [],
      { s with sample := BitVec.ofInt 16 v, code := ulaw s.cfg (BitVec.ofInt 16 v),
               status := s.status &&& 0xFFFFFF0F#32 })) ∧
    ∀ (ls : List AsmLine) (output : Option OutRange) (s : State),
      (s.err ≠ 0 → ∃ t, runLines (.check :: ls) output s = .next (.aborted .failedCheck, t)) ∧
      (s.err = 0 → ∃ t, t = { s with answers := t.answers } ∧
        runLines (.check :: ls) output s = runLines ls output t)

/-- R160, "Done": a sequence of lines that each are fixed host actions, with any range of `OBUF` named as its output,
performs the actions in order and, if all complete and the range lies inside `OBUF` and has values, is done with the bytes
of that range; the reading out changes nothing but the list of answers (log entries 4 and 14). -/
def Obligations.SequenceOutputsTheRangeItNames : Prop :=
  ∀ (ls : List AsmLine) (r : OutRange) (s t : State) (bs : List Byte),
    (∀ l ∈ ls, ∃ es, l.events = some es) →
    performAll (ls.flatMap (fun l => l.events.getD [])) s = .next t →
    r.first + r.len ≤ t.cfg.obufSize → t.obuf.readBytes r.first r.len = .ok bs →
    ∃ u, u = { t with answers := u.answers } ∧ runLines ls (some r) s = .next (.done bs, u)
end

