-- ==== Sys2Proof/Laws/Decode.lean ====
section
/-! SUPPORT. The decoder as a chain of tests, and the words of the encoder. -/

namespace Sys2Proof

theorem and_allOnes32 (w : Word) : w &&& 0xFFFFFFFF#32 = w := BitVec.and_allOnes

/-- The decoder, row by row (30_encoding R63). -/
theorem decode_chain (w : Word) :
    decode w =
      if w = 0x00000000#32 then .ok .nop
      else if w = 0x01000000#32 then .ok .enc
      else if w &&& 0xFFFF0000#32 = 0x02000000#32 then .ok (.enci (w.extractLsb' 0 16))
      else if w = 0x03000000#32 then .ok .encm
      else if w = 0x04000000#32 then .ok .loc
      else if w = 0x05000000#32 then .ok .hdr
      else if w = 0x0F000000#32 then .ok .rst
      else .error (illegalReason w) := by
  unfold decode opcodeMap
  simp only [List.find?_cons, List.find?_nil, OpRow.covers, and_allOnes32, beq_eq_decide]
  by_cases h0 : w = 0x00000000#32
  · simp [h0, rowInstr]
  by_cases h1 : w = 0x01000000#32
  · simp [h1, rowInstr]
  by_cases h2 : w &&& 0xFFFF0000#32 = 0x02000000#32
  · simp [h0, h1, h2, rowInstr]
  by_cases h3 : w = 0x03000000#32
  · simp [h3, rowInstr]
  by_cases h4 : w = 0x04000000#32
  · simp [h4, rowInstr]
  by_cases h5 : w = 0x05000000#32
  · simp [h5, rowInstr]
  by_cases h6 : w = 0x0F000000#32
  · simp [h6, rowInstr]
  · simp [h0, h1, h2, h3, h4, h5, h6]

/-- The three fields of a command word (30_encoding R61, R62). -/
theorem commandWord_toNat (opcode : BitVec 8) (low : BitVec 16) :
    (commandWord opcode low).toNat = 16777216 * opcode.toNat + low.toNat := by
  simp only [commandWord, BitVec.toNat_append, BitVec.toNat_ofNat]
  have h := low.isLt
  rw [← Nat.shiftLeft_add_eq_or_of_lt (by simpa using h), ← Nat.shiftLeft_add_eq_or_of_lt (by decide)]
  simp only [Nat.shiftLeft_eq]
  omega

/-- A word of the `ENCI` row, in numbers (30_encoding R62). -/
theorem enciRow_iff (w : Word) : w &&& 0xFFFF0000#32 = 0x02000000#32 ↔ w.toNat / 65536 = 0x0200 := by
  have hm : (w &&& 0xFFFF0000#32).toNat = w.toNat / 65536 * 65536 := by
    have h : (0xFFFF0000#32 : Word) = ~~~ 0xFFFF#32 := by decide
    have h2 : (w &&& 0xFFFF0000#32) = (w >>> 16) <<< 16 := by
      apply BitVec.eq_of_getLsbD_eq
      intro i hi
      have hmask : (0xFFFF0000#32).getLsbD i = decide (16 ≤ i) := by revert i; decide
      simp only [BitVec.getLsbD_and, hmask, BitVec.getLsbD_shiftLeft, BitVec.getLsbD_ushiftRight]
      by_cases h16 : i < 16
      · have : ¬ 16 ≤ i := by omega
        simp [h16]
      · have h3 : 16 + (i - 16) = i := by omega
        simp [h16, hi, h3]
        omega
    rw [h2]
    have := w.isLt
    simp only [BitVec.toNat_shiftLeft, BitVec.toNat_ushiftRight, Nat.shiftRight_eq_div_pow, Nat.shiftLeft_eq]
    omega
  constructor
  · intro h
    have := congrArg BitVec.toNat h
    rw [hm] at this
    simp at this
    omega
  · intro h
    apply BitVec.eq_of_toNat_eq
    rw [hm, h]
    rfl

end Sys2Proof
end

