-- ==== Sys2Proof/Laws/Encoder.lean ====
section
/-! SUPPORT. The ranges of the Sample Encoder's intermediate values, and its code byte in plain arithmetic. -/

namespace Sys2Proof.Machine

theorem biased_eq (s : Sample) : biased s = min s.toInt.natAbs 32635 + 132 := rfl

theorem biased_ge (s : Sample) : 132 ≤ biased s := by rw [biased_eq]; omega

theorem biased_le (s : Sample) : biased s ≤ 32767 := by rw [biased_eq]; omega

/-- `ULAW` rests on `SIGN_NONNEG` and `CTAB` of the parameters, and on no other. -/
theorem ulaw_congr {c c' : Config} (hs : c.signNonneg = c'.signNonneg) (ht : c.ctab = c'.ctab) (s : Sample) :
    ulaw c s = ulaw c' s := by
  obtain ⟨i, o, sn, ct⟩ := c
  obtain ⟨i', o', sn', ct'⟩ := c'
  simp only at hs ht
  subst hs ht
  rfl

/-- The exponent and the mantissa rest on the table alone, the packed byte on table and sign flag. -/
theorem exponent_config {c c' : Config} (ht : c.ctab = c'.ctab) (s : Sample) : exponent c s = exponent c' s := by
  unfold exponent
  simp only [ht]

theorem mantissa_config {c c' : Config} (ht : c.ctab = c'.ctab) (s : Sample) : mantissa c s = mantissa c' s := by
  unfold mantissa
  rw [exponent_config ht]

theorem packed_config {c c' : Config} (hs : c.signNonneg = c'.signNonneg) (ht : c.ctab = c'.ctab) (s : Sample) :
    packed c s = packed c' s := by
  unfold packed signFlag
  rw [exponent_config ht, mantissa_config ht, hs]

theorem mantissa_eq (c : Config) (s : Sample) :
    mantissa c s = biased s / 2 ^ ((exponent c s).toNat + 3) % 16 := by
  unfold mantissa
  rw [Nat.shiftRight_eq_div_pow]
  exact Nat.and_two_pow_sub_one_eq_mod _ 4

theorem mantissa_lt (c : Config) (s : Sample) : mantissa c s < 16 := by
  rw [mantissa_eq]; omega

/-- The three fields side by side (41_sample_encoder R107, R108): for all exponents and mantissas. -/
theorem pack_fields (sign : Byte) (e : BitVec 3) (m : BitVec 4) (h : sign = 0x80#8 ∨ sign = 0x00#8) :
    (~~~ (sign ||| (e.setWidth 8 <<< 4) ||| m.setWidth 8)).toNat = 255 - (sign.toNat + 16 * e.toNat + m.toNat) := by
  rcases h with rfl | rfl
  · revert m; revert e; decide
  · revert m; revert e; decide

theorem signFlag_cases (c : Config) (s : Sample) (h : c.signNonneg = 0x80#8 ∨ c.signNonneg = 0x00#8) :
    signFlag c s = 0x80#8 ∨ signFlag c s = 0x00#8 := by
  unfold signFlag
  rcases h with h | h <;> rw [h] <;> split <;> simp

theorem ofNat_mantissa (c : Config) (s : Sample) :
    BitVec.ofNat 8 (mantissa c s) = (BitVec.ofNat 4 (mantissa c s)).setWidth 8 := by
  have := mantissa_lt c s
  apply BitVec.eq_of_toNat_eq
  simp only [BitVec.toNat_ofNat, BitVec.toNat_setWidth]
  omega

/-- The code byte as a number (R100, R107, R108). -/
theorem ulaw_toNat (c : Config) (s : Sample) (h : c.signNonneg = 0x80#8 ∨ c.signNonneg = 0x00#8) :
    (ulaw c s).toNat = 255 - ((signFlag c s).toNat + 16 * (exponent c s).toNat + mantissa c s) := by
  have hm := mantissa_lt c s
  unfold ulaw packed
  rw [ofNat_mantissa, pack_fields _ _ _ (signFlag_cases c s h)]
  simp only [BitVec.toNat_ofNat]
  congr 2
  omega

/-- Bit 15 of a sample is its sign (41_sample_encoder R101). -/
theorem msb_iff_neg (s : Sample) : s.msb = true ↔ s.toInt < 0 := by
  rw [BitVec.toInt_eq_msb_cond]
  have := s.isLt
  cases s.msb
  · simp
  · simp; omega

/-- The sign flag as a number (R101). -/
theorem signFlag_toNat (c : Config) (s : Sample) (h : c.signNonneg = 0x80#8 ∨ c.signNonneg = 0x00#8) :
    (signFlag c s).toNat = if s.toInt < 0 then 0x80 - c.signNonneg.toNat else c.signNonneg.toNat := by
  have hm := msb_iff_neg s
  unfold signFlag
  by_cases hs : s.toInt < 0
  · rw [if_pos (hm.mpr hs), if_pos hs]
    rcases h with h | h <;> rw [h] <;> rfl
  · rw [if_neg (fun x => hs (hm.mp x)), if_neg hs]

/-- The exponent is the table's entry at the biased sample divided by 128 (R105). -/
theorem exponent_lookup (c : Config) (s : Sample) : c.ctab[biased s / 128]? = some (exponent c s) := by
  have h := biased_index_lt s
  rw [Nat.shiftRight_eq_div_pow] at h
  have e : biased s >>> 7 = biased s / 128 := by rw [Nat.shiftRight_eq_div_pow]
  unfold exponent
  simp only [e]
  simp

/-- Exponent and mantissa depend on the sample through its biased magnitude alone. -/
theorem exponent_congr (c : Config) (s u : Sample) (h : biased s = biased u) : exponent c s = exponent c u := by
  have a := exponent_lookup c s
  rw [h, exponent_lookup c u] at a
  injection a with a
  exact a.symm

theorem mantissa_congr (c : Config) (s u : Sample) (h : biased s = biased u) : mantissa c s = mantissa c u := by
  rw [mantissa_eq, mantissa_eq, h, exponent_congr c s u h]

/-- The low seven bits of a packed byte do not depend on the sign flag: for all exponents and mantissas. -/
theorem pack_low_bits (sign sign' : Byte) (e : BitVec 3) (m : BitVec 4) (h : sign = 0x80#8 ∨ sign = 0x00#8)
    (h' : sign' = 0x80#8 ∨ sign' = 0x00#8) :
    (~~~ (sign ||| (e.setWidth 8 <<< 4) ||| m.setWidth 8)).extractLsb' 0 7 =
      (~~~ (sign' ||| (e.setWidth 8 <<< 4) ||| m.setWidth 8)).extractLsb' 0 7 := by
  rcases h with rfl | rfl <;> rcases h' with rfl | rfl <;> (revert m; revert e; decide)

/-- The top bit of a code is the complement of the sign flag's (R107, R108). -/
theorem pack_top_bit (sign : Byte) (e : BitVec 3) (m : BitVec 4) (h : sign = 0x80#8 ∨ sign = 0x00#8) :
    (~~~ (sign ||| (e.setWidth 8 <<< 4) ||| m.setWidth 8)).getLsbD 7 = decide (sign = 0x00#8) := by
  rcases h with rfl | rfl
  · revert m; revert e; decide
  · revert m; revert e; decide

end Sys2Proof.Machine
end

