-- ==== Sys2Proof/Laws/Memory.lean ====
section
/-! SUPPORT. The laws of a buffer: a read after a write, other bytes untouched, the canonical form and the bounds kept,
runs of bytes. -/

namespace Sys2Proof.Machine

@[simp] theorem Memory.read_write_same (m : Memory) (a : Nat) (v : Byte) : (m.write a v).read a = some v := by
  induction m with
  | nil => simp [Memory.write, Memory.read]
  | cons c m ih =>
    obtain ⟨b, w⟩ := c
    simp only [Memory.write]
    split
    · simp [Memory.read]
    · split
      · simp [Memory.read]
      · rename_i _ hne
        simp [Memory.read, hne, ih]

theorem Memory.read_write_other (m : Memory) {a b : Nat} (v : Byte) (h : b ≠ a) :
    (m.write a v).read b = m.read b := by
  induction m with
  | nil => simp [Memory.write, Memory.read, h]
  | cons c m ih =>
    obtain ⟨x, w⟩ := c
    simp only [Memory.write]
    split
    · simp [Memory.read, h]
    · split
      · rename_i _ hax
        subst hax
        simp [Memory.read, h]
      · simp only [Memory.read, ih]

/-- A read after a write, either way. -/
theorem Memory.read_write (m : Memory) (a b : Nat) (v : Byte) :
    (m.write a v).read b = if b = a then some v else m.read b := by
  split
  · subst b; simp
  · exact Memory.read_write_other m v ‹_›

theorem Memory.risingFrom_write (m : Memory) {lo a : Nat} (v : Byte) (hlo : lo ≤ a)
    (h : Memory.risingFrom lo m = true) : Memory.risingFrom lo (m.write a v) = true := by
  induction m generalizing lo with
  | nil => simp [Memory.write, Memory.risingFrom, hlo]
  | cons c m ih =>
    obtain ⟨b, w⟩ := c
    simp only [Memory.risingFrom, Bool.and_eq_true, decide_eq_true_eq] at h
    simp only [Memory.write]
    split
    · rename_i hab
      simp only [Memory.risingFrom, Bool.and_eq_true, decide_eq_true_eq]
      exact ⟨hlo, hab, h.2⟩
    · split
      · rename_i _ hab
        subst hab
        simp only [Memory.risingFrom, Bool.and_eq_true, decide_eq_true_eq]
        exact h
      · simp only [Memory.risingFrom, Bool.and_eq_true, decide_eq_true_eq]
        exact ⟨h.1, ih (by omega) h.2⟩

/-- A write keeps the canonical form. -/
theorem Memory.wf_write (m : Memory) (a : Nat) (v : Byte) (h : m.wf = true) : (m.write a v).wf = true :=
  Memory.risingFrom_write m v (Nat.zero_le a) h

/-- A write below the size keeps the bounds. -/
theorem Memory.below_write (m : Memory) {a size : Nat} (v : Byte) (ha : a < size) (h : m.below size = true) :
    (m.write a v).below size = true := by
  induction m with
  | nil => simp [Memory.write, Memory.below, ha]
  | cons c m ih =>
    obtain ⟨b, w⟩ := c
    simp only [Memory.below, List.all_cons, Bool.and_eq_true, decide_eq_true_eq] at h ih
    simp only [Memory.write]
    split
    · simp only [Memory.below, List.all_cons, Bool.and_eq_true, decide_eq_true_eq]
      exact ⟨ha, h⟩
    · split
      · simp only [Memory.below, List.all_cons, Bool.and_eq_true, decide_eq_true_eq]
        exact ⟨ha, h.2⟩
      · simp only [Memory.below, List.all_cons, Bool.and_eq_true, decide_eq_true_eq]
        exact ⟨h.1, ih h.2⟩

theorem Memory.wf_writeBytes (m : Memory) (a : Nat) (bs : List Byte) (h : m.wf = true) :
    (m.writeBytes a bs).wf = true := by
  induction bs generalizing m a with
  | nil => exact h
  | cons b bs ih => exact ih _ _ (Memory.wf_write m a b h)

theorem Memory.below_writeBytes (m : Memory) {a size : Nat} (bs : List Byte) (ha : a + bs.length ≤ size)
    (h : m.below size = true) : (m.writeBytes a bs).below size = true := by
  induction bs generalizing m a with
  | nil => exact h
  | cons b bs ih =>
    simp only [List.length_cons] at ha
    exact ih _ (by omega) (Memory.below_write m b (by omega) h)

/-- A byte after a run of writes: the byte of the run, or what was there. -/
theorem Memory.read_writeBytes (m : Memory) (a : Nat) (bs : List Byte) (x : Nat) :
    (m.writeBytes a bs).read x = if a ≤ x then (bs[x - a]?).orElse (fun _ => m.read x) else m.read x := by
  induction bs generalizing m a with
  | nil => simp [Memory.writeBytes]
  | cons b bs ih =>
    simp only [Memory.writeBytes, ih, Memory.read_write]
    by_cases h1 : a + 1 ≤ x
    · have h2 : a ≤ x := by omega
      have h3 : x - a = (x - (a + 1)) + 1 := by omega
      have h4 : x ≠ a := by omega
      simp [h1, h2, h3, h4]
    · by_cases h2 : a ≤ x
      · have h3 : x = a := by omega
        subst h3
        simp
      · have h4 : x ≠ a := by omega
        simp [h1, h2, h4]

/-- A run of reads succeeds exactly when every byte of the run has a value, and gives those values. -/
theorem Memory.readBytes_ok (m : Memory) (a n : Nat) (bs : List Byte) :
    m.readBytes a n = .ok bs ↔ bs.length = n ∧ ∀ k, k < n → m.read (a + k) = bs[k]? := by
  induction n generalizing a bs with
  | zero =>
    simp only [Memory.readBytes]
    constructor
    · intro h; cases h; simp
    · intro h
      have : bs = [] := List.length_eq_zero_iff.mp h.1
      rw [this]
  | succ n ih =>
    simp only [Memory.readBytes]
    constructor
    · intro h
      split at h
      · cases h
      · rename_i b hb
        split at h
        · cases h
        · rename_i cs hcs
          cases h
          obtain ⟨hl, hk⟩ := (ih (a + 1) cs).mp hcs
          refine ⟨by simp [hl], ?_⟩
          intro k hk'
          cases k with
          | zero => simpa using hb
          | succ k =>
            have := hk k (by omega)
            rw [← Nat.add_assoc, Nat.add_right_comm]
            simpa using this
    · rintro ⟨hl, hk⟩
      cases bs with
      | nil => simp at hl
      | cons b bs =>
        have h0 := hk 0 (by omega)
        simp only [Nat.add_zero, List.getElem?_cons_zero] at h0
        have hr : m.readBytes (a + 1) n = .ok bs := by
          refine (ih (a + 1) bs).mpr ⟨by simpa using hl, ?_⟩
          intro k hk'
          have := hk (k + 1) (by omega)
          rw [Nat.add_right_comm, Nat.add_assoc]
          simpa [Nat.add_assoc] using this
        rw [h0, hr]

/-- A run of bytes that all have a value can be read. -/
theorem Memory.readBytes_of_hasBytes (m : Memory) (a n : Nat) (h : m.hasBytes a n) :
    ∃ bs, m.readBytes a n = .ok bs := by
  induction n generalizing a with
  | zero => exact ⟨[], rfl⟩
  | succ n ih =>
    obtain ⟨v, hv⟩ := h 0 (by omega)
    obtain ⟨bs, hbs⟩ := ih (a + 1) (fun k hk => by
      have := h (k + 1) (by omega)
      simpa [Nat.add_assoc, Nat.add_comm 1] using this)
    refine ⟨v :: bs, ?_⟩
    simp only [Nat.add_zero] at hv
    simp [Memory.readBytes, hv, hbs]

@[simp] theorem leBytes_length (n v : Nat) : (leBytes n v).length = n := by
  induction n generalizing v with
  | zero => rfl
  | succ n ih => simp [leBytes, ih]

/-- Assembling the little-endian bytes of a number gives it back, as far as the width goes. -/
theorem leNat_leBytes (n v : Nat) : leNat (leBytes n v) = v % 256 ^ n := by
  induction n generalizing v with
  | zero => simp [leNat, leBytes, Nat.mod_one]
  | succ n ih =>
    simp only [leBytes, leNat, ih, BitVec.toNat_ofNat]
    rw [Nat.pow_succ' (n := n)]
    exact (Nat.mod_mul (x := v) (a := 256) (b := 256 ^ n)).symm

/-- `ENCM` stores one byte (43_control_commands R154). -/
@[simp] theorem memWrite_one (m : Memory) (a : Nat) (v : Byte) : memWrite m a 1 v.toNat = m.write a v := by
  simp [memWrite, leBytes, Memory.writeBytes]

end Sys2Proof.Machine
end

