-- ==== Sys2Proof/Laws/Locator.lean ====
section
/-! SUPPORT. What the search of `LOC` over a buffer can do, said once: the comparison at one position, the search over a
run of positions, and the search over a byte sequence. -/

namespace Sys2Proof.Machine

/-- The marker stands at `p` exactly when each byte has the marker's value. -/
theorem matchAt_true_iff (mem : Memory) (bs : List Byte) (p : Nat) :
    matchAt mem bs p = .ok true ↔ ∀ k, k < bs.length → mem.read (p + k) = bs[k]? := by
  induction bs generalizing p with
  | nil => simp [matchAt]
  | cons b bs ih =>
    simp only [matchAt, List.length_cons]
    constructor
    · intro h k hk
      split at h
      · cases h
      · rename_i v hv
        split at h
        · rename_i hvb
          cases k with
          | zero => simpa [hvb] using hv
          | succ k =>
            have := (ih (p + 1)).mp h k (by omega)
            rw [Nat.add_right_comm] at this
            simpa [Nat.add_assoc] using this
        · cases h
    · intro h
      have h0 := h 0 (by omega)
      simp only [Nat.add_zero, List.getElem?_cons_zero] at h0
      simp only [h0, if_true]
      refine (ih (p + 1)).mpr ?_
      intro k hk
      have := h (k + 1) (by omega)
      rw [Nat.add_right_comm]
      simpa [Nat.add_assoc] using this

/-- A comparison that stops on a byte without a value has matched every byte before it. -/
theorem matchAt_error (mem : Memory) (bs : List Byte) (p a : Nat) (h : matchAt mem bs p = .error a) :
    p ≤ a ∧ a < p + bs.length ∧ mem.read a = none ∧ ∀ k, p + k < a → mem.read (p + k) = bs[k]? := by
  induction bs generalizing p with
  | nil => simp [matchAt] at h
  | cons b bs ih =>
    simp only [matchAt] at h
    split at h
    · rename_i hn
      cases h
      refine ⟨by omega, by simp, hn, ?_⟩
      intro k hk
      omega
    · rename_i v hv
      split at h
      · rename_i hvb
        obtain ⟨h1, h2, h3, h4⟩ := ih (p + 1) h
        refine ⟨by omega, by simp only [List.length_cons]; omega, h3, ?_⟩
        intro k hk
        cases k with
        | zero => simpa [hvb] using hv
        | succ k =>
          have := h4 k (by omega)
          rw [Nat.add_right_comm] at this
          simpa [Nat.add_assoc] using this
      · cases h

/-- A comparison that fails has met a byte that differs, after bytes that match. -/
theorem matchAt_false (mem : Memory) (bs : List Byte) (p : Nat) (h : matchAt mem bs p = .ok false) :
    ∃ k v, k < bs.length ∧ mem.read (p + k) = some v ∧ bs[k]? ≠ some v := by
  induction bs generalizing p with
  | nil => simp [matchAt] at h
  | cons b bs ih =>
    simp only [matchAt] at h
    split at h
    · cases h
    · rename_i v hv
      split at h
      · obtain ⟨k, w, hk, hr, hne⟩ := ih (p + 1) h
        exact ⟨k + 1, w, by simpa using hk, by rw [← Nat.add_assoc, Nat.add_right_comm]; exact hr, by simpa using hne⟩
      · rename_i hne
        exact ⟨0, v, by simp, by simpa using hv, by simp; exact fun h => hne h.symm⟩

/-- Where every byte has a value the comparison answers. -/
theorem matchAt_of_hasBytes (mem : Memory) (bs : List Byte) (p : Nat) (h : mem.hasBytes p bs.length) :
    matchAt mem bs p = .ok true ∨ matchAt mem bs p = .ok false := by
  cases hm : matchAt mem bs p with
  | ok b => cases b <;> simp
  | error a =>
    obtain ⟨h1, h2, h3, -⟩ := matchAt_error mem bs p a hm
    obtain ⟨v, hv⟩ := h (a - p) (by omega)
    rw [Nat.add_sub_cancel' h1, h3] at hv
    cases hv

/-- The comparison reads the bytes at `p` to `p + 3` only. -/
theorem matchAt_congr (mem mem' : Memory) (bs : List Byte) (p : Nat)
    (h : ∀ a, p ≤ a → a < p + bs.length → mem'.read a = mem.read a) : matchAt mem' bs p = matchAt mem bs p := by
  induction bs generalizing p with
  | nil => rfl
  | cons b bs ih =>
    simp only [List.length_cons] at h
    simp only [matchAt, h p (by omega) (by omega)]
    rw [ih (p + 1) (fun a h1 h2 => h a (by omega) (by omega))]

/-- The first position of the run at which the comparison does not answer "no" decides the search. -/
theorem searchFrom_eq (mem : Memory) (m : List Byte) (n p q : Nat) (hpq : p ≤ q) (hq : q < p + n)
    (hno : ∀ r, p ≤ r → r < q → matchAt mem m r = .ok false) (hyes : matchAt mem m q ≠ .ok false) :
    searchFrom mem m n p =
      match matchAt mem m q with
      | .error a => .error a
      | .ok _ => .ok (some q) := by
  induction n generalizing p with
  | zero => omega
  | succ n ih =>
    simp only [searchFrom]
    by_cases h : q = p
    · subst h
      cases hm : matchAt mem m q with
      | error a => rfl
      | ok b => cases b with
        | true => rfl
        | false => exact absurd hm hyes
    · rw [hno p (Nat.le_refl p) (by omega)]
      exact ih (p + 1) (by omega) (by omega) (fun r h1 h2 => hno r (by omega) h2)

/-- When every comparison of the run answers "no" the search finds nothing. -/
theorem searchFrom_none (mem : Memory) (m : List Byte) (n p : Nat)
    (hno : ∀ r, p ≤ r → r < p + n → matchAt mem m r = .ok false) : searchFrom mem m n p = .ok none := by
  induction n generalizing p with
  | zero => rfl
  | succ n ih =>
    simp only [searchFrom, hno p (Nat.le_refl p) (by omega)]
    exact ih (p + 1) (fun r h1 h2 => hno r (by omega) (by omega))

/-- Everything the search can do: it finds nothing because every comparison says "no", or the first other comparison
decides it. -/
theorem searchFrom_cases (mem : Memory) (m : List Byte) (n p : Nat) :
    ((∀ r, p ≤ r → r < p + n → matchAt mem m r = .ok false) ∧ searchFrom mem m n p = .ok none) ∨
    ∃ q, p ≤ q ∧ q < p + n ∧ (∀ r, p ≤ r → r < q → matchAt mem m r = .ok false) ∧
      ((matchAt mem m q = .ok true ∧ searchFrom mem m n p = .ok (some q)) ∨
        ∃ a, matchAt mem m q = .error a ∧ searchFrom mem m n p = .error a) := by
  induction n generalizing p with
  | zero => exact .inl ⟨by intro r h1 h2; omega, rfl⟩
  | succ n ih =>
    simp only [searchFrom]
    cases hm : matchAt mem m p with
    | error a => exact .inr ⟨p, Nat.le_refl p, by omega, by intro r h1 h2; omega, .inr ⟨a, hm, rfl⟩⟩
    | ok b =>
      cases b with
      | true => exact .inr ⟨p, Nat.le_refl p, by omega, by intro r h1 h2; omega, .inl ⟨hm, rfl⟩⟩
      | false =>
        have step : ∀ {r q}, p ≤ r → r < q → (∀ r, p + 1 ≤ r → r < q → matchAt mem m r = .ok false) →
            matchAt mem m r = .ok false := by
          intro r q h1 h2 h3
          by_cases h : r = p
          · subst h; exact hm
          · exact h3 r (by omega) h2
        rcases ih (p + 1) with ⟨h1, h2⟩ | ⟨q, h1, h2, h3, h4⟩
        · exact .inl ⟨fun r h3 h4 => step h3 (q := p + 1 + n) (by omega) h1, h2⟩
        · exact .inr ⟨q, by omega, by omega, fun r h5 h6 => step h5 h6 h3, h4⟩

/-- The search reads the bytes its positions reach and no others. -/
theorem searchFrom_congr (mem mem' : Memory) (m : List Byte) (n p : Nat)
    (h : ∀ a, p ≤ a → a + 1 < p + n + m.length → mem'.read a = mem.read a) :
    searchFrom mem' m n p = searchFrom mem m n p := by
  induction n generalizing p with
  | zero => rfl
  | succ n ih =>
    simp only [searchFrom, matchAt_congr mem mem' m p (fun a h1 h2 => h a h1 (by omega))]
    rw [ih (p + 1) (fun a h1 h2 => h a (by omega) (by omega))]

@[simp] theorem markerBytes_length (w : Word) : (markerBytes w).length = 4 := rfl

theorem markerBytes_getElem (w : Word) (k : Nat) (hk : k < 4) :
    (markerBytes w)[k]? = some (w.extractLsb' (8 * k) 8) := by
  have : k = 0 ∨ k = 1 ∨ k = 2 ∨ k = 3 := by omega
  rcases this with rfl | rfl | rfl | rfl <;> rfl

end Sys2Proof.Machine
end

