-- ==== Sys2Proof/Laws/Flags.lean ====
section
/-! SUPPORT. The fields of `STATUS`: reading back what was written, and that one field's write leaves the other. -/

namespace Sys2Proof.Machine

@[simp] theorem errOf_putErr (e : BitVec 4) (st : Word) : errOf (putErr e st) = e := by
  ext i hi
  have : i = 0 ∨ i = 1 ∨ i = 2 ∨ i = 3 := by omega
  rcases this with rfl | rfl | rfl | rfl <;> simp [errOf, putErr]

@[simp] theorem foundOf_putErr (e : BitVec 4) (st : Word) : foundOf (putErr e st) = foundOf st := by
  simp [foundOf, putErr]

@[simp] theorem errOf_putFound (f : Bool) (st : Word) : errOf (putFound f st) = errOf st := by
  ext i hi
  have : i = 0 ∨ i = 1 ∨ i = 2 ∨ i = 3 := by omega
  rcases this with rfl | rfl | rfl | rfl <;> simp [errOf, putFound]

@[simp] theorem foundOf_putFound (f : Bool) (st : Word) : foundOf (putFound f st) = f := by
  cases f <;> simp [foundOf, putFound]

theorem getLsbD_reservedMask (i : Nat) (hi : i < 32) :
    (0xFFFFFF0E#32).getLsbD i = (decide (i ≠ 0) && (decide (i < 4) || decide (8 ≤ i))) := by
  revert i
  decide

/-- A write of `ERR` leaves the reserved bits (10_state R14). -/
@[simp] theorem reserved_putErr (e : BitVec 4) (st : Word) :
    putErr e st &&& 0xFFFFFF0E#32 = st &&& 0xFFFFFF0E#32 := by
  apply BitVec.eq_of_getLsbD_eq
  intro i hi
  have h : (0xFFFFFF0F#32).getLsbD i = (decide (i < 4) || decide (8 ≤ i)) := by revert i; decide
  simp only [putErr, BitVec.getLsbD_and, BitVec.getLsbD_or, BitVec.getLsbD_shiftLeft, BitVec.getLsbD_setWidth,
    getLsbD_reservedMask i hi, h]
  by_cases h4 : i < 4
  · simp [h4]
  · by_cases h8 : 8 ≤ i
    · have : e.getLsbD (i - 4) = false := BitVec.getLsbD_of_ge _ _ (by omega)
      simp [h8, this]
    · simp [h4, h8]

/-- A write of `FOUND` leaves the reserved bits (10_state R14). -/
@[simp] theorem reserved_putFound (f : Bool) (st : Word) :
    putFound f st &&& 0xFFFFFF0E#32 = st &&& 0xFFFFFF0E#32 := by
  apply BitVec.eq_of_getLsbD_eq
  intro i hi
  have h : (0xFFFFFFFE#32).getLsbD i = decide (i ≠ 0) := by revert i; decide
  simp only [putFound, BitVec.getLsbD_and, BitVec.getLsbD_or, BitVec.getLsbD_setWidth, getLsbD_reservedMask i hi, h]
  by_cases h0 : i = 0
  · simp [h0]
  · have : (BitVec.ofBool f).getLsbD i = false := BitVec.getLsbD_of_ge _ _ (by omega)
    simp [h0, this]

/-- A status word is its reserved bits, its error code and its found flag. -/
theorem status_ext (st st' : Word) (hr : st &&& 0xFFFFFF0E#32 = st' &&& 0xFFFFFF0E#32) (he : errOf st = errOf st')
    (hf : foundOf st = foundOf st') : st = st' := by
  ext i hi
  by_cases h0 : i = 0
  · subst h0
    simpa [foundOf] using hf
  · by_cases h : i < 4 ∨ 8 ≤ i
    · have := congrArg (fun x : Word => x.getLsbD i) hr
      simp only [BitVec.getLsbD_and, getLsbD_reservedMask i hi] at this
      have hm : (decide (i ≠ 0) && (decide (i < 4) || decide (8 ≤ i))) = true := by
        rcases h with h | h <;> simp [h0, h]
      rw [hm] at this
      simpa [BitVec.getLsbD_eq_getElem hi] using this
    · have := congrArg (fun x : BitVec 4 => x.getLsbD (i - 4)) he
      have h4 : i - 4 < 4 := by omega
      have h5 : 4 + (i - 4) = i := by omega
      simpa [errOf, BitVec.getLsbD_extractLsb', h4, h5, BitVec.getLsbD_eq_getElem hi] using this

/-- `ERR <- 0` as a mask. -/
theorem putErr_zero (st : Word) : putErr 0#4 st = st &&& 0xFFFFFF0F#32 := by simp [putErr]

/-- An error code as a mask. -/
theorem putErr_illegal (st : Word) : putErr ErrKind.illegal.errCode st = (st &&& 0xFFFFFF0F#32) ||| 0x10#32 := by
  simp [putErr, ErrKind.errCode]

theorem putErr_bounds (st : Word) : putErr ErrKind.bounds.errCode st = (st &&& 0xFFFFFF0F#32) ||| 0x20#32 := by
  simp [putErr, ErrKind.errCode]

theorem putErr_len (st : Word) : putErr ErrKind.len.errCode st = (st &&& 0xFFFFFF0F#32) ||| 0x30#32 := by
  simp [putErr, ErrKind.errCode]

/-- `FOUND <- 0`, `ERR <- 0` as one mask. -/
theorem putErr_zero_putFound_false (st : Word) : putErr 0#4 (putFound false st) = st &&& 0xFFFFFF0E#32 := by
  rw [putErr_zero]
  unfold putFound
  simp [BitVec.and_assoc]

/-- `FOUND <- 1`, `ERR <- 0` as one mask. -/
theorem putErr_zero_putFound_true (st : Word) :
    putErr 0#4 (putFound true st) = (st &&& 0xFFFFFF0E#32) ||| 1#32 := by
  rw [putErr_zero]
  unfold putFound
  apply BitVec.eq_of_getLsbD_eq
  intro i hi
  have h : (0xFFFFFFFE#32).getLsbD i = decide (i ≠ 0) := by revert i; decide
  have h' : (0xFFFFFF0F#32).getLsbD i = (decide (i < 4) || decide (8 ≤ i)) := by revert i; decide
  simp only [BitVec.getLsbD_and, BitVec.getLsbD_or, getLsbD_reservedMask i hi, h, h']
  by_cases h0 : i = 0
  · subst h0; simp
  · simp [h0]

@[simp] theorem errCode_toNat_le (e : ErrKind) : e.errCode.toNat ≤ 3 := by cases e <;> decide

end Sys2Proof.Machine
end

