-- ==== Sys2Proof/Laws/State.lean ====
section
/-! SUPPORT. One lemma per field per named update of the state: what `setErr`, `setFound`, `succeed`, `raiseErr`,
`resetRegisters` and `hardwareResetState` leave of each field. -/

namespace Sys2Proof.Machine

section
variable (s : State) (e : BitVec 4) (f : Bool) (k : ErrKind)

@[simp] theorem setErr_cfg : (s.setErr e).cfg = s.cfg := rfl
@[simp] theorem setErr_status : (s.setErr e).status = putErr e s.status := rfl
@[simp] theorem setErr_sample : (s.setErr e).sample = s.sample := rfl
@[simp] theorem setErr_code : (s.setErr e).code = s.code := rfl
@[simp] theorem setErr_marker : (s.setErr e).marker = s.marker := rfl
@[simp] theorem setErr_offset : (s.setErr e).offset = s.offset := rfl
@[simp] theorem setErr_ilen : (s.setErr e).ilen = s.ilen := rfl
@[simp] theorem setErr_src : (s.setErr e).src = s.src := rfl
@[simp] theorem setErr_dst : (s.setErr e).dst = s.dst := rfl
@[simp] theorem setErr_plen : (s.setErr e).plen = s.plen := rfl
@[simp] theorem setErr_ibuf : (s.setErr e).ibuf = s.ibuf := rfl
@[simp] theorem setErr_obuf : (s.setErr e).obuf = s.obuf := rfl
@[simp] theorem setErr_pending : (s.setErr e).pending = s.pending := rfl
@[simp] theorem setErr_answers : (s.setErr e).answers = s.answers := rfl

@[simp] theorem setFound_cfg : (s.setFound f).cfg = s.cfg := rfl
@[simp] theorem setFound_status : (s.setFound f).status = putFound f s.status := rfl
@[simp] theorem setFound_sample : (s.setFound f).sample = s.sample := rfl
@[simp] theorem setFound_code : (s.setFound f).code = s.code := rfl
@[simp] theorem setFound_marker : (s.setFound f).marker = s.marker := rfl
@[simp] theorem setFound_offset : (s.setFound f).offset = s.offset := rfl
@[simp] theorem setFound_ilen : (s.setFound f).ilen = s.ilen := rfl
@[simp] theorem setFound_src : (s.setFound f).src = s.src := rfl
@[simp] theorem setFound_dst : (s.setFound f).dst = s.dst := rfl
@[simp] theorem setFound_plen : (s.setFound f).plen = s.plen := rfl
@[simp] theorem setFound_ibuf : (s.setFound f).ibuf = s.ibuf := rfl
@[simp] theorem setFound_obuf : (s.setFound f).obuf = s.obuf := rfl
@[simp] theorem setFound_pending : (s.setFound f).pending = s.pending := rfl
@[simp] theorem setFound_answers : (s.setFound f).answers = s.answers := rfl

/-- A command that succeeds is a write of `ERR`; the lemmas of `setErr` say the rest. -/
@[simp] theorem succeed_eq : succeed s = s.setErr 0#4 := rfl

/-- An error is a write of `ERR`; the lemmas of `setErr` say the rest. -/
@[simp] theorem raiseErr_eq : raiseErr k s = s.setErr k.errCode := rfl

@[simp] theorem setErr_err : (s.setErr e).err = e := errOf_putErr e s.status
@[simp] theorem setErr_found : (s.setErr e).found = s.found := foundOf_putErr e s.status
@[simp] theorem setFound_err : (s.setFound f).err = s.err := errOf_putFound f s.status
@[simp] theorem setFound_found : (s.setFound f).found = f := foundOf_putFound f s.status

@[simp] theorem resetRegisters_cfg : (resetRegisters s).cfg = s.cfg := rfl
@[simp] theorem resetRegisters_status : (resetRegisters s).status = 0#32 := rfl
@[simp] theorem resetRegisters_sample : (resetRegisters s).sample = 0#16 := rfl
@[simp] theorem resetRegisters_code : (resetRegisters s).code = 0#8 := rfl
@[simp] theorem resetRegisters_marker : (resetRegisters s).marker = 0x61746164#32 := rfl
@[simp] theorem resetRegisters_offset : (resetRegisters s).offset = 0#32 := rfl
@[simp] theorem resetRegisters_ilen : (resetRegisters s).ilen = 0#32 := rfl
@[simp] theorem resetRegisters_src : (resetRegisters s).src = 0#32 := rfl
@[simp] theorem resetRegisters_dst : (resetRegisters s).dst = 0#32 := rfl
@[simp] theorem resetRegisters_plen : (resetRegisters s).plen = 0#32 := rfl
@[simp] theorem resetRegisters_ibuf : (resetRegisters s).ibuf = s.ibuf := rfl
@[simp] theorem resetRegisters_obuf : (resetRegisters s).obuf = s.obuf := rfl
@[simp] theorem resetRegisters_pending : (resetRegisters s).pending = s.pending := rfl
@[simp] theorem resetRegisters_answers : (resetRegisters s).answers = s.answers := rfl
@[simp] theorem resetRegisters_err : (resetRegisters s).err = 0 := by simp [State.err, errOf]
@[simp] theorem resetRegisters_found : (resetRegisters s).found = false := by simp [State.found, foundOf]

@[simp] theorem hardwareReset_cfg : (hardwareResetState s).cfg = s.cfg := rfl
@[simp] theorem hardwareReset_status : (hardwareResetState s).status = 0#32 := rfl
@[simp] theorem hardwareReset_offset : (hardwareResetState s).offset = 0#32 := rfl
@[simp] theorem hardwareReset_ibuf : (hardwareResetState s).ibuf = [] := rfl
@[simp] theorem hardwareReset_obuf : (hardwareResetState s).obuf = [] := rfl
@[simp] theorem hardwareReset_pending : (hardwareResetState s).pending = s.pending := rfl
@[simp] theorem hardwareReset_answers : (hardwareResetState s).answers = s.answers := rfl
@[simp] theorem hardwareReset_err : (hardwareResetState s).err = 0 := by simp [State.err, errOf]
@[simp] theorem hardwareReset_found : (hardwareResetState s).found = false := by simp [State.found, foundOf]

@[simp] theorem buf_ibuf : s.buf .ibuf = s.ibuf := rfl
@[simp] theorem buf_obuf : s.buf .obuf = s.obuf := rfl
@[simp] theorem setBuf_ibuf (m : Memory) : s.setBuf .ibuf m = { s with ibuf := m } := rfl
@[simp] theorem setBuf_obuf (m : Memory) : s.setBuf .obuf m = { s with obuf := m } := rfl

end

end Sys2Proof.Machine
end

