-- ==== Sys2Proof/Laws/Exec.lean ====
section
/-! SUPPORT. What each command can do, said once: one equation per branch of its meaning. Later proofs cite these and do
not unfold `exec`. -/

namespace Sys2Proof.Machine

variable (s : State)

theorem exec_nop : exec .nop s = .next (s.setErr 0#4) := rfl

theorem exec_enc : exec .enc s = .next (State.setErr 0#4 { s with code := ulaw s.cfg s.sample }) := rfl

theorem exec_enci (imm : Sample) :
    exec (.enci imm) s = .next (State.setErr 0#4 { s with code := ulaw s.cfg imm }) := rfl

theorem exec_rst : exec .rst s = .next (resetRegisters s) := rfl

theorem exec_hdr_err (h : plenLimit < s.plen.toNat) : exec .hdr s = .next (s.setErr ErrKind.len.errCode) := if_pos h

theorem exec_hdr_ok (h : ¬ plenLimit < s.plen.toNat) :
    exec .hdr s =
      .next (State.setErr 0#4 { s with obuf := s.obuf.writeBytes 0 (header s.plen.toNat) }) := if_neg h

theorem exec_encm_err (h : encmOutOfBounds s = true) : exec .encm s = .next (s.setErr ErrKind.bounds.errCode) :=
  if_pos h

theorem exec_encm_fault (h : encmOutOfBounds s = false) (a : Nat) (ha : bufferOperand s = .error a) :
    exec .encm s = .fault (.unwrittenByte .ibuf a) := by
  simp [exec, execEncm, h, ha]

theorem exec_encm_ok (h : encmOutOfBounds s = false) (x : Sample) (hx : bufferOperand s = .ok x) :
    exec .encm s =
      .next (State.setErr 0#4
        { s with obuf := s.obuf.write s.dst.toNat (ulaw s.cfg x), code := ulaw s.cfg x,
                 src := s.src + 2#32, dst := s.dst + 1#32 }) := by
  simp [exec, execEncm, h, hx]

theorem exec_loc_err (h : ilenTooLong s = true) : exec .loc s = .next (s.setErr ErrKind.bounds.errCode) := if_pos h

theorem exec_loc_fault (h : ilenTooLong s = false) (a : Nat)
    (ha : search s.ibuf (markerBytes s.marker) s.ilen.toNat = .error a) :
    exec .loc s = .fault (.unwrittenByte .ibuf a) := by
  simp [exec, execLoc, h, ha]

theorem exec_loc_found (h : ilenTooLong s = false) (p : Nat)
    (hp : search s.ibuf (markerBytes s.marker) s.ilen.toNat = .ok (some p)) :
    exec .loc s = .next (State.setErr 0#4 (State.setFound true { s with offset := BitVec.ofNat 32 p })) := by
  simp [exec, execLoc, h, hp]

theorem exec_loc_not_found (h : ilenTooLong s = false)
    (hp : search s.ibuf (markerBytes s.marker) s.ilen.toNat = .ok none) :
    exec .loc s = .next (State.setErr 0#4 (State.setFound false { s with offset := 0#32 })) := by
  simp [exec, execLoc, h, hp]

theorem ilenTooLong_iff : ilenTooLong s = true ↔ s.cfg.ibufSize < s.ilen.toNat := by simp [ilenTooLong]

theorem ilenTooLong_false_iff : ilenTooLong s = false ↔ s.ilen.toNat ≤ s.cfg.ibufSize := by simp [ilenTooLong]

theorem encmOutOfBounds_iff :
    encmOutOfBounds s = true ↔
      s.cfg.ibufSize < s.ilen.toNat ∨ s.ilen.toNat < s.src.toNat + 2 ∨ s.cfg.obufSize ≤ s.dst.toNat := by
  simp [encmOutOfBounds, ilenTooLong, or_assoc]

theorem encmOutOfBounds_false_iff :
    encmOutOfBounds s = false ↔
      s.ilen.toNat ≤ s.cfg.ibufSize ∧ s.src.toNat + 2 ≤ s.ilen.toNat ∧ s.dst.toNat < s.cfg.obufSize := by
  simp [encmOutOfBounds, ilenTooLong, and_assoc]

/-- The sample is the two bytes at `SRC`, the low one first (20_memory R41). -/
theorem bufferOperand_ok (lo hi : Byte) (h0 : s.ibuf.read s.src.toNat = some lo)
    (h1 : s.ibuf.read (s.src.toNat + 1) = some hi) : bufferOperand s = .ok (hi ++ lo) := by
  have e : BitVec.ofNat 16 (leNat [lo, hi]) = hi ++ lo := by
    apply BitVec.eq_of_toNat_eq
    have hl := lo.isLt
    have hh := hi.isLt
    simp only [BitVec.toNat_append, leNat, BitVec.toNat_ofNat]
    rw [← Nat.shiftLeft_add_eq_or_of_lt (by simpa using hl), Nat.shiftLeft_eq]
    omega
  simp [bufferOperand, memRead, Memory.readBytes, h0, h1, e]

/-- The operand stops on the first of the two bytes that has no value. -/
theorem bufferOperand_error (a : Nat) :
    bufferOperand s = .error a ↔
      (a = s.src.toNat ∧ s.ibuf.read s.src.toNat = none) ∨
      (a = s.src.toNat + 1 ∧ (∃ lo, s.ibuf.read s.src.toNat = some lo) ∧ s.ibuf.read (s.src.toNat + 1) = none) := by
  simp only [bufferOperand, memRead, Memory.readBytes]
  cases h0 : s.ibuf.read s.src.toNat with
  | none => simp [eq_comm]
  | some lo =>
    cases h1 : s.ibuf.read (s.src.toNat + 1) with
    | none => simp [eq_comm]
    | some hi => simp

/-- The two ways the operand comes out. -/
theorem bufferOperand_cases :
    (∃ lo hi, s.ibuf.read s.src.toNat = some lo ∧ s.ibuf.read (s.src.toNat + 1) = some hi ∧
      bufferOperand s = .ok (hi ++ lo)) ∨ ∃ a, bufferOperand s = .error a := by
  cases h0 : s.ibuf.read s.src.toNat with
  | none => exact .inr ⟨_, (bufferOperand_error s _).mpr (.inl ⟨rfl, h0⟩)⟩
  | some lo =>
    cases h1 : s.ibuf.read (s.src.toNat + 1) with
    | none => exact .inr ⟨_, (bufferOperand_error s _).mpr (.inr ⟨rfl, ⟨lo, h0⟩, h1⟩)⟩
    | some hi => exact .inl ⟨lo, hi, rfl, rfl, bufferOperand_ok s lo hi h0 h1⟩

/-- Everything `ENCM` can do. -/
theorem exec_encm_cases :
    (encmOutOfBounds s = true ∧ exec .encm s = .next (s.setErr ErrKind.bounds.errCode)) ∨
    (encmOutOfBounds s = false ∧ ∃ a, bufferOperand s = .error a ∧ exec .encm s = .fault (.unwrittenByte .ibuf a)) ∨
    (encmOutOfBounds s = false ∧ ∃ x, bufferOperand s = .ok x ∧ exec .encm s =
      .next (State.setErr 0#4
        { s with obuf := s.obuf.write s.dst.toNat (ulaw s.cfg x), code := ulaw s.cfg x,
                 src := s.src + 2#32, dst := s.dst + 1#32 })) := by
  cases h : encmOutOfBounds s with
  | true => exact .inl ⟨rfl, exec_encm_err s h⟩
  | false =>
    cases hx : bufferOperand s with
    | error a => exact .inr (.inl ⟨rfl, a, rfl, exec_encm_fault s h a hx⟩)
    | ok x => exact .inr (.inr ⟨rfl, x, rfl, exec_encm_ok s h x hx⟩)

/-- Everything `LOC` can do. -/
theorem exec_loc_cases :
    (ilenTooLong s = true ∧ exec .loc s = .next (s.setErr ErrKind.bounds.errCode)) ∨
    (ilenTooLong s = false ∧ ∃ a, search s.ibuf (markerBytes s.marker) s.ilen.toNat = .error a ∧
      exec .loc s = .fault (.unwrittenByte .ibuf a)) ∨
    (ilenTooLong s = false ∧ ∃ p, search s.ibuf (markerBytes s.marker) s.ilen.toNat = .ok (some p) ∧
      exec .loc s = .next (State.setErr 0#4 (State.setFound true { s with offset := BitVec.ofNat 32 p }))) ∨
    (ilenTooLong s = false ∧ search s.ibuf (markerBytes s.marker) s.ilen.toNat = .ok none ∧
      exec .loc s = .next (State.setErr 0#4 (State.setFound false { s with offset := 0#32 }))) := by
  cases h : ilenTooLong s with
  | true => exact .inl ⟨rfl, exec_loc_err s h⟩
  | false =>
    rcases hx : search s.ibuf (markerBytes s.marker) s.ilen.toNat with a | (_ | p)
    · exact .inr (.inl ⟨rfl, a, rfl, exec_loc_fault s h a hx⟩)
    · exact .inr (.inr (.inr ⟨rfl, rfl, exec_loc_not_found s h hx⟩))
    · exact .inr (.inr (.inl ⟨rfl, p, rfl, exec_loc_found s h p hx⟩))

/-- Everything `HDR` can do. -/
theorem exec_hdr_cases :
    (plenLimit < s.plen.toNat ∧ exec .hdr s = .next (s.setErr ErrKind.len.errCode)) ∨
    (¬ plenLimit < s.plen.toNat ∧ exec .hdr s =
      .next (State.setErr 0#4 { s with obuf := s.obuf.writeBytes 0 (header s.plen.toNat) })) := by
  by_cases h : plenLimit < s.plen.toNat
  · exact .inl ⟨h, exec_hdr_err s h⟩
  · exact .inr ⟨h, exec_hdr_ok s h⟩

/-- A search that stops has met a byte below the length that has no value. -/
theorem search_error (mem : Memory) (w : Word) (len a : Nat) (h : search mem (markerBytes w) len = .error a) :
    a < len ∧ mem.read a = none := by
  unfold search at h
  rcases searchFrom_cases mem (markerBytes w) (len - 3) 0 with ⟨-, h2⟩ | ⟨q, -, h2, -, ⟨-, h4⟩ | ⟨b, h4, h5⟩⟩
  · rw [h2] at h; cases h
  · rw [h4] at h; cases h
  · rw [h5] at h
    cases h
    obtain ⟨-, h6, h7, -⟩ := matchAt_error _ _ _ _ h4
    simp only [markerBytes_length] at h6
    exact ⟨by omega, h7⟩

/-- A position the search answers leaves room for the marker. -/
theorem search_found_le (mem : Memory) (w : Word) (len p : Nat) (h : search mem (markerBytes w) len = .ok (some p)) :
    p + 4 ≤ len := by
  unfold search at h
  rcases searchFrom_cases mem (markerBytes w) (len - 3) 0 with ⟨-, h2⟩ | ⟨q, -, h2, -, ⟨-, h4⟩ | ⟨b, h4, h5⟩⟩
  · rw [h2] at h; cases h
  · rw [h4] at h; cases h; omega
  · rw [h5] at h; cases h

end Sys2Proof.Machine
end

