-- ==== Sys2Proof/Laws/Header.lean ====
section
/-! SUPPORT. The header's length and the values of the constant fields. -/

namespace Sys2Proof.Machine

@[simp] theorem header_length (n : Nat) : (header n).length = 58 := by
  simp [header, le32, le16, tagRiff, tagWave, tagFmt, tagFact, tagData]

/-- Byte rate and block align are constants (42_header_synthesizer R132). -/
theorem byteRate_eq : byteRate = 8000 := by decide

theorem blockAlign_eq : blockAlign = 1 := by decide

end Sys2Proof.Machine
end

