-- ==== Sys2Proof/Laws/HostSequences.lean ====
section
/-! SUPPORT. What the pieces of a host sequence do, said once: one equation per constructor, the writes of a list of
events, a read followed by the host's decision, a command followed by its test, the copy loop, the reading out of the
output. A read changes the list of answers only. -/

namespace Sys2Proof.Machine

@[simp] theorem andThen_next {α β : Type} (a : α) (k : α → Host.Outcome β Fault Refusal) :
    andThen (.next a) k = k a := rfl

theorem performAll_append (es fs : List HostEvent) (s : State) :
    performAll (es ++ fs) s = andThen (performAll es s) (performAll fs) := by
  induction es generalizing s with
  | nil => rfl
  | cons e es ih =>
    simp only [List.cons_append, performAll]
    cases perform e s with
    | next t => exact ih t
    | fault r => rfl
    | refused r => rfl

theorem perform_wr_marker (s : State) (v : Nat) :
    perform (wrEvent .marker v) s = .next { s with marker := BitVec.ofNat 32 v } := rfl
theorem perform_wr_ilen (s : State) (v : Nat) :
    perform (wrEvent .ilen v) s = .next { s with ilen := BitVec.ofNat 32 v } := rfl
theorem perform_wr_src (s : State) (v : Nat) :
    perform (wrEvent .src v) s = .next { s with src := BitVec.ofNat 32 v } := rfl
theorem perform_wr_dst (s : State) (v : Nat) :
    perform (wrEvent .dst v) s = .next { s with dst := BitVec.ofNat 32 v } := rfl
theorem perform_wr_plen (s : State) (v : Nat) :
    perform (wrEvent .plen v) s = .next { s with plen := BitVec.ofNat 32 v } := rfl

/-- The writes of a `load` line land in the input buffer, when they fit. -/
theorem performAll_storeEvents (bs : List Byte) (a : Nat) (s : State) (h : a + bs.length ≤ s.cfg.ibufSize) :
    performAll (storeEvents .ibuf a bs) s = .next { s with ibuf := s.ibuf.writeBytes a bs } := by
  induction bs generalizing a s with
  | nil => rfl
  | cons b bs ih =>
    simp only [List.length_cons] at h
    have h1 : a < Space.size s.cfg .ibuf := by show a < s.cfg.ibufSize; omega
    simp only [storeEvents, performAll, perform, hostWriteByte, if_pos h1, andThen_next]
    exact ih _ _ (by show a + 1 + bs.length ≤ s.cfg.ibufSize; omega)

theorem performAll_loadEvents (bs : List Byte) (s : State) (h : bs.length ≤ s.cfg.ibufSize) :
    performAll (loadEvents bs) s =
      .next { s with ibuf := s.ibuf.writeBytes 0 bs, ilen := BitVec.ofNat 32 bs.length } := by
  rw [loadEvents, performAll_append, performAll_storeEvents _ _ _ (by omega)]
  rfl

/-- The run that was written is read back whole. -/
theorem Memory.readBytes_writeBytes (m : Memory) (a : Nat) (bs : List Byte) :
    (m.writeBytes a bs).readBytes a bs.length = .ok bs := by
  rw [Memory.readBytes_ok]
  refine ⟨rfl, ?_⟩
  intro k hk
  rw [Memory.read_writeBytes, if_pos (by omega)]
  simp [hk]

/-! One equation per constructor of a sequence. -/

theorem run_aborted (r : AbortReason) (s : State) : runSequence (.aborted r) s = .next (.aborted r, s) := rfl

theorem run_act (e : HostEvent) (k : HostSequence) (s : State) :
    runSequence (.act e k) s = andThen (perform e s) (runSequence k) := rfl

theorem run_actions (es : List HostEvent) (k : HostSequence) (s : State) :
    runSequence (actions es k) s = andThen (performAll es s) (runSequence k) := by
  induction es generalizing s with
  | nil => rfl
  | cons e es ih =>
    show andThen (perform e s) (fun s' => runSequence (actions es k) s') = _
    simp only [performAll]
    cases perform e s with
    | next t => exact ih t
    | fault r => rfl
    | refused r => rfl

/-- The host goes on with the value it read. -/
theorem run_withSlot_status (s : State) (k : Word → HostSequence) :
    runSequence (withSlot .status k) s =
      runSequence (k (s.status &&& 0xF1#32)) { s with answers := .reg 1 (s.status &&& 0xF1#32) :: s.answers } := rfl

theorem run_withSlot_offset (s : State) (k : Word → HostSequence) :
    runSequence (withSlot .offset k) s =
      runSequence (k s.offset) { s with answers := .reg 5 s.offset :: s.answers } := rfl

/-- A host byte read of a byte that has a value. -/
theorem hostReadByte_eq (sp : Space) (a : Nat) (v : Byte) (s : State) (ha : a < sp.size s.cfg)
    (hv : (s.buf sp).read a = some v) :
    hostReadByte sp a s = .next { s with answers := .byte sp a v :: s.answers } := by
  simp [hostReadByte, ha, hv]

theorem run_readByte (sp : Space) (a : Nat) (v : Byte) (s : State) (ha : a < sp.size s.cfg)
    (hv : (s.buf sp).read a = some v) (k : Byte → HostSequence) :
    runSequence (.readByte sp a k) s = runSequence (k v) { s with answers := .byte sp a v :: s.answers } := by
  simp only [runSequence, hostReadByte_eq sp a v s ha hv, andThen_next]
  rfl

/-- A run of host reads of bytes that have values: the host goes on with them. -/
theorem run_withBytes (sp : Space) (bs : List Byte) (a n : Nat) (s : State) (ha : a + n ≤ sp.size s.cfg)
    (hv : (s.buf sp).readBytes a n = .ok bs) :
    ∃ as, ∀ k : List Byte → HostSequence,
      runSequence (withBytes sp a n k) s = runSequence (k bs) { s with answers := as } := by
  induction n generalizing bs a s with
  | zero =>
    simp only [Memory.readBytes] at hv
    cases hv
    exact ⟨s.answers, fun k => rfl⟩
  | succ n ih =>
    simp only [Memory.readBytes] at hv
    split at hv
    · cases hv
    · rename_i b hb
      split at hv
      · cases hv
      · rename_i cs hcs
        cases hv
        obtain ⟨as, h⟩ := ih cs (a + 1) { s with answers := .byte sp a b :: s.answers }
          (by show a + 1 + n ≤ sp.size s.cfg; omega) (by cases sp <;> exact hcs)
        refine ⟨as, fun k => ?_⟩
        simp only [withBytes]
        rw [run_readByte sp a b s (by omega) hb, h]

/-- Reading out a range of bytes that have values gives them and changes the list of answers only. -/
theorem readOut_eq (bs : List Byte) (a n : Nat) (s : State) (ha : a + n ≤ s.cfg.obufSize)
    (hv : s.obuf.readBytes a n = .ok bs) : ∃ as, readOut a n s = .next (bs, { s with answers := as }) := by
  induction n generalizing bs a s with
  | zero =>
    simp only [Memory.readBytes] at hv
    cases hv
    exact ⟨s.answers, rfl⟩
  | succ n ih =>
    simp only [Memory.readBytes] at hv
    split at hv
    · cases hv
    · rename_i b hb
      split at hv
      · cases hv
      · rename_i cs hcs
        cases hv
        have h1 : a < Space.size s.cfg .obuf := by show a < s.cfg.obufSize; omega
        obtain ⟨as, h⟩ := ih cs (a + 1) { s with answers := .byte .obuf a b :: s.answers }
          (by show a + 1 + n ≤ s.cfg.obufSize; omega) hcs
        refine ⟨as, ?_⟩
        simp only [readOut, hostReadByte_eq .obuf a b s h1 hb, andThen_next, h]
        rfl

/-- A sequence that is done gives the range it names. -/
theorem run_done (r : OutRange) (bs : List Byte) (s : State) (ha : r.first + r.len ≤ s.cfg.obufSize)
    (hv : s.obuf.readBytes r.first r.len = .ok bs) :
    ∃ as, runSequence (.done r) s = .next (.done bs, { s with answers := as }) := by
  obtain ⟨as, h⟩ := readOut_eq bs r.first r.len s ha hv
  refine ⟨as, ?_⟩
  simp only [runSequence, h, andThen_next]

/-- The host's read of `STATUS` shows both fields. -/
theorem errOf_read (st : Word) : errOf (st &&& 0xF1#32) = errOf st := by
  apply BitVec.eq_of_getLsbD_eq
  intro i hi
  unfold errOf
  interval_cases i <;> simp

theorem foundOf_read (st : Word) : foundOf (st &&& 0xF1#32) = foundOf st := by
  simp [foundOf]

/-- The test of `ERR`: the rest, or an abort. -/
theorem run_checkErr (r : AbortReason) (k : HostSequence) (s : State) :
    runSequence (checkErr r k) s =
      runSequence (if s.err = 0 then k else .aborted r)
        { s with answers := .reg 1 (s.status &&& 0xF1#32) :: s.answers } := by
  unfold checkErr
  rw [run_withSlot_status, errOf_read]
  rfl

/-- A command that succeeds passes the host's test. -/
theorem run_checkedCommand (i : Instr) (r : AbortReason) (s t : State) (h : perform (commandEvent i) s = .next t)
    (he : t.err = 0) (k : HostSequence) :
    runSequence (checkedCommand i r k) s =
      runSequence k { t with answers := .reg 1 (t.status &&& 0xF1#32) :: t.answers } := by
  unfold checkedCommand
  rw [run_act, h, andThen_next, run_checkErr, if_pos he]

/-- What the host's copying leaves alone. -/
structure KeepsInput (s t : State) : Prop where
  cfg : t.cfg = s.cfg
  ibuf : t.ibuf = s.ibuf
  ilen : t.ilen = s.ilen

/-- The copy loop of `CONCAT` copies the run, when both ends fit. -/
theorem run_copyLoop (n src dst : Nat) (s : State) (bs : List Byte) (h1 : src + n ≤ s.cfg.ibufSize)
    (h2 : dst + n ≤ s.cfg.obufSize) (hr : s.ibuf.readBytes src n = .ok bs) :
    ∃ t, KeepsInput s t ∧ t.obuf = s.obuf.writeBytes dst bs ∧
      ∀ k, runSequence (copyLoop n src dst k) s = runSequence k t := by
  induction n generalizing src dst s bs with
  | zero =>
    simp only [Memory.readBytes] at hr
    cases hr
    exact ⟨s, ⟨rfl, rfl, rfl⟩, rfl, fun k => rfl⟩
  | succ n ih =>
    simp only [Memory.readBytes] at hr
    split at hr
    · cases hr
    · rename_i b hb
      split at hr
      · cases hr
      · rename_i cs hcs
        cases hr
        have hd : dst < Space.size s.cfg .obuf := by show dst < s.cfg.obufSize; omega
        obtain ⟨t, ⟨k1, k2, k3⟩, h4, h5⟩ :=
          ih (src + 1) (dst + 1)
            { s with answers := .byte .ibuf src b :: s.answers, obuf := s.obuf.write dst b } cs
            (by show src + 1 + n ≤ s.cfg.ibufSize; omega) (by show dst + 1 + n ≤ s.cfg.obufSize; omega) hcs
        refine ⟨t, ⟨k1, k2, k3⟩, h4, fun k => ?_⟩
        simp only [copyLoop]
        rw [run_readByte .ibuf src b s (by show src < s.cfg.ibufSize; omega) hb]
        simp only [runSequence, perform, hostWriteByte]
        rw [if_pos hd, andThen_next]
        exact h5 k

/-- Lines that are fixed host actions are those actions. -/
theorem linesBefore_events (c : Config) (ls : List AsmLine) (named : OutRange) (k : OutRange → HostSequence)
    (h : ∀ l ∈ ls, ∃ es, l.events = some es) :
    linesBefore c ls named k = actions (ls.flatMap (fun l => l.events.getD [])) (k named) := by
  induction ls with
  | nil => rfl
  | cons l ls ih =>
    have hl : l.before c named (fun r => linesBefore c ls r k) =
        actions (l.events.getD []) (linesBefore c ls named k) := by
      obtain ⟨es, he⟩ := h l List.mem_cons_self
      cases l <;> first | rfl | cases he
    simp only [linesBefore, hl, List.flatMap_cons, ih (fun x hx => h x (List.mem_cons_of_mem _ hx))]
    unfold actions
    rw [List.foldr_append]

end Sys2Proof.Machine
end

