-- ==== Sys2Proof/Laws/PerInstr.lean ====
section
/-! SUPPORT. One fact per command: the encoder's word is its row's match value with the immediate in the low half
(30_encoding R61 to R64). -/

namespace Sys2Proof.Laws.EncodedWord

/-- The word of each command as a number, from the opcode column of 30_encoding R63. -/
def number : Instr → Nat
  | .nop => 0x00000000
  | .enc => 0x01000000
  | .enci imm16 => 0x02000000 + imm16.toNat
  | .encm => 0x03000000
  | .loc => 0x04000000
  | .hdr => 0x05000000
  | .rst => 0x0F000000

def Statement (i : Instr) : Prop := (encode i).toNat = number i

theorem nop : Statement .nop := by unfold Statement; decide
theorem enc : Statement .enc := by unfold Statement; decide
theorem enci (imm16 : Sample) : Statement (.enci imm16) := by
  unfold Statement encode number
  rw [commandWord_toNat]
  rfl
theorem encm : Statement .encm := by unfold Statement; decide
theorem loc : Statement .loc := by unfold Statement; decide
theorem hdr : Statement .hdr := by unfold Statement; decide
theorem rst : Statement .rst := by unfold Statement; decide

end Sys2Proof.Laws.EncodedWord
end

