-- ==== Sys2Proof/Tests/Slice0.lean ====
section
/-! SUPPORT. The model's own tests: the checks of WellFormed refuse ill-formed terms, words written out from 30_encoding
decode, each instruction and host action does on a small state what a numbered rule or a row of 95_test_vectors says, and
each statement that has hypotheses has a witness that meets them. -/

namespace Sys2Proof.Tests

open Sys2Proof Sys2Proof.Machine Sys2Proof.Claims

/-! Small states. -/

/-- The state an outcome holds, if it is a next state. -/
def nextOf (o : Host.Outcome State Fault Refusal) : Option State :=
  match o with
  | .next t => some t
  | .fault _ => none
  | .refused _ => none

/-- The fault an outcome holds, if it is one. -/
def faultOf (o : Host.Outcome State Fault Refusal) : Option Fault :=
  match o with
  | .next _ => none
  | .fault f => some f
  | .refused _ => none

/-- The refusal an outcome holds, if it is one. -/
def refusalOf (o : Host.Outcome State Fault Refusal) : Option Refusal :=
  match o with
  | .next _ => none
  | .fault _ => none
  | .refused r => some r

/-- What a sequence gave. -/
def resultOf (o : Host.Outcome (SeqResult × State) Fault Refusal) : Option SeqResult :=
  match o with
  | .next r => some r.1
  | .fault _ => none
  | .refused _ => none

/-- Reset, with bytes loaded from address 0 on and `ILEN` set. -/
def loaded (bs : List Byte) : State :=
  { State.reset with ibuf := Memory.writeBytes [] 0 bs, ilen := BitVec.ofNat 32 bs.length }

/-- "RIFFxxxxdata", the example of 40_chunk_locator R84. -/
def riffBytes : List Byte := [0x52, 0x49, 0x46, 0x46, 0x78, 0x78, 0x78, 0x78, 0x64, 0x61, 0x74, 0x61]

/-- A container with one sample, 0x7FFF, behind "data" and its length field. -/
def oneSample : List Byte := [0x64, 0x61, 0x74, 0x61, 0x02, 0x00, 0x00, 0x00, 0xFF, 0x7F]

/-- Two containers of µ-law bytes, one and two bytes long. -/
def boxA : List Byte := [0x64, 0x61, 0x74, 0x61, 0x01, 0x00, 0x00, 0x00, 0x11]
def boxB : List Byte := [0x00, 0x64, 0x61, 0x74, 0x61, 0x02, 0x00, 0x00, 0x00, 0x22, 0x33]

/-- `ENCM` ready at the last legal place of both buffers. -/
def encmEdge : State := { loaded oneSample with src := 8#32, dst := 63#32 }

/-! WellFormed: an ill-formed term for each check. -/

theorem test_wf_config_ibuf_too_large : ({ resetConfig with ibufSize := 2147483649 } : Config).legal = false := by decide
theorem test_wf_config_obuf_too_small : ({ resetConfig with obufSize := 57 } : Config).legal = false := by decide
theorem test_wf_config_obuf_too_large : ({ resetConfig with obufSize := 2147483649 } : Config).legal = false := by decide
theorem test_wf_config_sign : ({ resetConfig with signNonneg := 0x40#8 } : Config).legal = false := by decide
theorem test_wf_config_legal : resetConfig.legal = true := by decide
theorem test_wf_event_write_reg : (HostEvent.writeReg 16 0#32).inRange resetConfig = false := by decide
theorem test_wf_event_read_reg : (HostEvent.readReg 16).inRange resetConfig = false := by decide
theorem test_wf_event_write_byte : (HostEvent.writeByte .ibuf 64 0#8).inRange resetConfig = false := by decide
theorem test_wf_event_read_byte : (HostEvent.readByte .obuf 64).inRange resetConfig = false := by decide
theorem test_wf_line_wr_reserved : (AsmLine.wr .reserved 0).wf resetConfig = false := by decide
theorem test_wf_line_wr_negative : (AsmLine.wr .src (-1)).wf resetConfig = false := by decide
theorem test_wf_line_wr_too_large : (AsmLine.wr .src 4294967296).wf resetConfig = false := by decide
theorem test_wf_line_rd_reserved : (AsmLine.rd .reserved).wf resetConfig = false := by decide
theorem test_wf_line_wb_address : (AsmLine.wb .obuf 64 0).wf resetConfig = false := by decide
theorem test_wf_line_wb_value : (AsmLine.wb .ibuf 0 256).wf resetConfig = false := by decide
theorem test_wf_line_rb_address : (AsmLine.rb .ibuf 64).wf resetConfig = false := by decide
theorem test_wf_line_enci_low : (AsmLine.enci (-32769)).wf resetConfig = false := by decide
theorem test_wf_line_enci_high : (AsmLine.enci 65536).wf resetConfig = false := by decide
theorem test_wf_line_encs_high : (AsmLine.encs 65536).wf resetConfig = false := by decide
theorem test_wf_line_load : (AsmLine.load (List.replicate 65 0#8)).wf resetConfig = false := by decide

/-! Decoding: a word of every row, bit by bit from R61 to R63 (opcode, zero, the low half). -/

theorem test_decode_nop : decode 0b00000000_00000000_0000000000000000#32 = .ok .nop := by decide
theorem test_decode_enc : decode 0b00000001_00000000_0000000000000000#32 = .ok .enc := by decide
theorem test_decode_enci : decode 0b00000010_00000000_1111110000011000#32 = .ok (.enci 0xFC18#16) := by decide
theorem test_decode_encm : decode 0b00000011_00000000_0000000000000000#32 = .ok .encm := by decide
theorem test_decode_loc : decode 0b00000100_00000000_0000000000000000#32 = .ok .loc := by decide
theorem test_decode_hdr : decode 0b00000101_00000000_0000000000000000#32 = .ok .hdr := by decide
theorem test_decode_rst : decode 0b00001111_00000000_0000000000000000#32 = .ok .rst := by decide
theorem test_decode_unassigned : decode 0x10000000#32 = .error (.unassignedOpcode 0x10#8) := by decide
theorem test_decode_zero_field : decode 0x01000001#32 = .error (.nonzeroZeroField 0x01#8) := by decide
theorem test_decode_enci_zero_field : decode 0x02010000#32 = .error (.nonzeroZeroField 0x02#8) := by decide

/-- The words of opcode_table.json as the host gives them: decoded, and run by the next step. -/
theorem test_table_words :
    [0x00000000, 0x01000000, 0x02000000, 0x03000000, 0x04000000, 0x05000000, 0x0F000000].map (decodeTableWord 32) =
      [some .nop, some .enc, some (.enci 0), some .encm, some .loc, some .hdr, some .rst] := by decide

theorem test_table_word_too_long : decodeTableWord 64 4294967296 = none := by decide

theorem test_with_fetch_word_runs :
    (nextOf (step (State.reset.withFetchWord 32 0x0200FC18))).map (fun t => (t.code, t.pending)) =
      some (0xCE#8, []) := by decide

/-! The commands: examples of the rules and rows of 95_test_vectors. -/

/-- 43_control_commands R151, the example: `STATUS` 0x10 becomes 0, and 1 if `FOUND` was 1. -/
theorem test_nop_clears_err :
    ([0x10#32, 0x11#32].map (fun st => (nextOf (exec .nop { State.reset with status := st })).map (·.status))) =
      [some 0x00#32, some 0x01#32] := by decide

/-- 41_sample_encoder R115: the example and the corner cases. -/
theorem test_enc_values :
    ([0x03E8#16, 0x8000#16, 0x0000#16, 0xFFFF#16].map
      (fun x => (nextOf (exec .enc { State.reset with sample := x })).map (·.code))) =
      [some 0x4E#8, some 0x80#8, some 0x7F#8, some 0xFF#8] := by decide

/-- 41_sample_encoder R116: `SAMPLE` is not touched; 95_test_vectors 2.1, the row of 124. -/
theorem test_enci_keeps_sample :
    (nextOf (exec (.enci 0x007C#16) { State.reset with sample := 0x1234#16 })).map (fun t => (t.code, t.sample)) =
      some (0x6F#8, 0x1234#16) := by decide

/-- 41_sample_encoder R117, the example, moved to the edge of both buffers. -/
theorem test_encm_at_the_edge :
    (nextOf (exec .encm encmEdge)).map (fun t => (t.code, t.src, t.dst, t.obuf.read 63, t.status)) =
      some (0x00#8, 10#32, 64#32, some 0x00#8, 0x00#32) := by decide

/-- 41_sample_encoder R117: one trailing byte is never half read. -/
theorem test_encm_trailing_byte :
    (nextOf (exec .encm { encmEdge with src := 9#32 })).map (fun t => (t.status, t.src, t.dst, t.obuf)) =
      some (0x20#32, 9#32, 63#32, []) := by decide

/-- 40_chunk_locator R84, the example. -/
theorem test_loc_example :
    (nextOf (exec .loc (loaded riffBytes))).map (fun t => (t.offset, t.status)) = some (8#32, 0x1#32) := by decide

/-- 40_chunk_locator R84: absence is no error; `FOUND` and `OFFSET` of an earlier search are replaced by 0. -/
theorem test_loc_absent :
    (nextOf (exec .loc { loaded riffBytes with ilen := 11#32, status := 0x31#32, offset := 5#32 })).map
      (fun t => (t.offset, t.status)) = some (0#32, 0x0#32) := by decide

/-- 42_header_synthesizer R142, the example: `PLEN` = 4; `OBUF[58]` stays. -/
theorem test_hdr_example :
    (nextOf (exec .hdr { State.reset with plen := 4#32, obuf := [(58, 0xAA#8)] })).map
      (fun t => ([4, 5, 7, 46, 54, 57, 58].map t.obuf.read, t.obuf.length)) =
      some ([some 0x36, some 0x00, some 0x00, some 0x04, some 0x04, some 0x00, some 0xAA], 59) := by decide

/-- 42_header_synthesizer R142: one past the largest payload length. -/
theorem test_hdr_too_long :
    (nextOf (exec .hdr { State.reset with plen := 0xFFFFFFCE#32 })).map (fun t => (t.status, t.obuf)) =
      some (0x30#32, []) := by decide

/-- 43_control_commands R152, the example; the buffers stay. -/
theorem test_rst_example :
    (nextOf (exec .rst { loaded riffBytes with status := 0x21#32, marker := 0#32, src := 7#32 })).map
      (fun t => (t.marker, t.status, t.ilen, t.src, t.ibuf.length)) =
      some (0x61746164#32, 0#32, 0#32, 0#32, 12) := by decide

/-! The host's actions and reset. -/

theorem test_host_write_sample_drops_high_half :
    (nextOf (performAll [.writeReg 2 0xABCD8001#32, .readReg 2] State.reset)).map (·.answers) =
      some [.reg 2 0x00008001#32] := by decide

theorem test_host_read_unwritten : faultOf (perform (.readByte .obuf 63) State.reset) = some (.unwrittenByte .obuf 63) := by
  decide

theorem test_host_outside :
    [refusalOf (perform (.readByte .ibuf 64) State.reset), refusalOf (perform (.writeReg 16 0#32) State.reset)] =
      [some (.noSuchAddress .ibuf 64), some (.noSuchRegister 16)] := by decide

theorem test_hardware_reset_forgets_buffers :
    (nextOf (perform .hardwareReset (loaded riffBytes))).map (fun t => (t.ibuf, t.marker, t.ilen)) =
      some ([], 0x61746164#32, 0#32) := by decide

/-! The table and the function, against the intermediate values of 95_test_vectors 2.1. -/

/-- The row of sample 0x03E8: clipped 1000, biased 1132, exponent 3, mantissa 1, packed 0xB1. -/
theorem test_ulaw_steps :
    (clipped 0x03E8#16, biased 0x03E8#16, exponent resetConfig 0x03E8#16, mantissa resetConfig 0x03E8#16,
      packed resetConfig 0x03E8#16) = (1000, 1132, 3#3, 1, 0xB1#8) := by decide

/-- The other polarity, same table: rows 0x0000, 0x1234 and 0x8000. -/
theorem test_ulaw_other_polarity :
    ([0x0000#16, 0x1234#16, 0x8000#16].map (ulaw { resetConfig with signNonneg := 0x00#8 })) =
      [0xFF#8, 0xAD#8, 0x00#8] := by decide

/-! Host sequences and their text. -/

/-- 45_host_sequences R161 on a container with the one sample 32767, whose code is 0x00 (R113). -/
theorem test_transcode_one_sample :
    (resultOf (runTranscode oneSample State.reset)).map (fun r =>
      match r with
      | .done out => some (out.length, out.getLast?)
      | .aborted _ => none) = some (some (59, some 0x00#8)) := by decide

set_option maxRecDepth 2000 in
/-- 45_host_sequences R166: payload A, then payload B, behind the header. -/
theorem test_concat_order :
    (resultOf (runConcat boxA boxB State.reset)).map (fun r =>
      match r with
      | .done out => some (out.length, out.drop 58)
      | .aborted _ => none) = some (some (61, [0x11#8, 0x22#8, 0x33#8])) := by decide

/-- 45_host_sequences R160: a text of plain lines names a range of `OBUF` that does not start at 0 (95_test_vectors P5,
`OBUF[63]` after the `encm` of sample 0x8000, whose code is 0x80). -/
theorem test_lines_name_a_range :
    resultOf (runLines
      [.load [0x00, 0x80], .wr .src 0, .wr .dst 63, .wb .obuf 62 0x55, .encm] (some ⟨62, 2⟩) State.reset) =
      some (.done [0x55#8, 0x80#8]) := by decide

/-- 45_host_sequences R160: a sequence that stops early names no output (95_test_vectors P5, the illegal word). -/
theorem test_lines_abort :
    resultOf (runLines [.wr .cmd 0x06000000, .check, .nop] (some ⟨0, 0⟩) State.reset) =
      some (.aborted .failedCheck) := by decide

theorem test_parse_enci : parseLine "  enci -1000 ; the example of R116".toList = some (some (.enci (-1000))) := by decide
theorem test_parse_upper_case : parseLine "ENCM".toList = some (some .encm) := by decide
theorem test_parse_wb : parseLine "wb IBUF[0x2C], 255".toList = some (some (.wb .ibuf 44 255)) := by decide
theorem test_parse_marker :
    parseLine "marker \"data\"".toList = some (some (.marker 0x64#8 0x61#8 0x74#8 0x61#8)) := by decide
/-- Separators of every kind may stand before a line and before a quoted operand (log entry 15). -/
theorem test_parse_marker_separators :
    parseLine "\t, Marker\t \"fmt \" ; c".toList = some (some (.marker 0x66#8 0x6D#8 0x74#8 0x20#8)) := by decide

/-- The reserved slots have no name in the text (log entry 20). -/
theorem test_parse_reserved_slot : parseLine "rd reserved".toList = none := by decide
theorem test_parse_unknown : parseLine "dec 5".toList = none := by decide
theorem test_assemble_refuses_ill_formed : assemble resetConfig ["enci 65536".toList] = none := by decide

/-! Witnesses: for each statement with hypotheses, a state and operands that meet all of them together. -/

theorem witness_EncodeInvertsDecode : decode 0x0200FFFF#32 = .ok (.enci 0xFFFF#16) := by decide

theorem witness_EnciImmediateIsSignedLowHalf :
    (0x02007FFF#32 : Word).toNat / 65536 = 0x0200 ∧ (0x02008000#32 : Word).toNat / 65536 = 0x0200 := by decide

theorem witness_StepRunsTheCommand :
    (State.reset.withFetchWord 32 0x0F000000).pending = .writeReg 0 0x0F000000#32 :: [] ∧
      decode 0x0F000000#32 = .ok .rst := by decide

theorem witness_IllegalWordSetsErrOnly :
    ∀ r ∈ mapRows, (0x06000000#32 : Word) &&& r.2.1 ≠ r.1 := by
  intro r hr
  simp only [mapRows, List.mem_cons, List.not_mem_nil, or_false] at hr
  rcases hr with rfl | rfl | rfl | rfl | rfl | rfl | rfl <;> decide

theorem witness_IdleKeepsTheState : State.reset.pending = [] := by decide

theorem witness_UnimplementedBitsReadZero : (15 : Nat) < 16 ∧ (15 : Nat) ≠ 0 := by decide

theorem witness_HostWriteThenRead : ∀ i ∈ [2, 9], i ∈ [2, 4, 6, 7, 8, 9] := by decide

theorem witness_ReservedAndMissingSlots : (10 ≤ 10 ∧ 15 ≤ 15) ∧ 15 < 16 := by decide

theorem witness_HostWriteByteEffects :
    63 < Space.obuf.size State.reset.cfg ∧ Space.obuf.size State.reset.cfg ≤ 64 ∧ (Space.ibuf ≠ Space.obuf) := by decide

theorem witness_HostReadByteReturns :
    (11 < Space.ibuf.size (loaded riffBytes).cfg ∧ ((loaded riffBytes).buf .ibuf).read 11 = some 0x61#8) ∧
      (12 < Space.ibuf.size (loaded riffBytes).cfg ∧ ((loaded riffBytes).buf .ibuf).read 12 = none) ∧
      Space.ibuf.size (loaded riffBytes).cfg ≤ 64 := by decide

theorem witness_ThisHardware : ThisHardware resetConfig := ⟨rfl, rfl⟩

theorem witness_EncmEncodesOneSample_runs :
    encmEdge.cfg.legal = true ∧ encmEdge.ilen.toNat ≤ encmEdge.cfg.ibufSize ∧
      encmEdge.src.toNat + 2 ≤ encmEdge.ilen.toNat ∧ encmEdge.dst.toNat < encmEdge.cfg.obufSize ∧
      encmEdge.ibuf.read encmEdge.src.toNat = some 0xFF#8 ∧
      encmEdge.ibuf.read (encmEdge.src.toNat + 1) = some 0x7F#8 := by decide

theorem witness_EncmEncodesOneSample_bounds :
    (let s := { encmEdge with ilen := 65#32 }; s.cfg.legal = true ∧ s.cfg.ibufSize < s.ilen.toNat) ∧
      (let s := { encmEdge with src := 9#32 }; s.cfg.legal = true ∧ s.ilen.toNat < s.src.toNat + 2) ∧
      (let s := { encmEdge with dst := 64#32 }; s.cfg.legal = true ∧ s.cfg.obufSize ≤ s.dst.toNat) := by decide

theorem loaded_riff_hasBytes (n : Nat) (hn : n ≤ 12) : (loaded riffBytes).ibuf.hasBytes 0 n := by
  intro k hk
  have : k < 12 := by omega
  interval_cases k <;> exact ⟨_, rfl⟩

theorem witness_LocFindsTheLowestMarker_bounds :
    let s := { loaded riffBytes with ilen := 65#32 }
    s.cfg.ibufSize < s.ilen.toNat := by decide

theorem witness_LocFindsTheLowestMarker_found :
    (loaded riffBytes).ilen.toNat ≤ (loaded riffBytes).cfg.ibufSize ∧ 8 + 4 ≤ (loaded riffBytes).ilen.toNat ∧
      (loaded riffBytes).ibuf.hasBytes 0 8 ∧ MarkerAt (loaded riffBytes).ibuf (loaded riffBytes).marker 8 ∧
      ∀ q, q < 8 → ¬ MarkerAt (loaded riffBytes).ibuf (loaded riffBytes).marker q := by
  refine ⟨by decide, by decide, loaded_riff_hasBytes 8 (by decide), by unfold MarkerAt; decide, ?_⟩
  unfold MarkerAt
  decide

theorem witness_LocFindsTheLowestMarker_absent :
    let s := { loaded riffBytes with ilen := 11#32 }
    s.ilen.toNat ≤ s.cfg.ibufSize ∧ s.ibuf.hasBytes 0 s.ilen.toNat ∧
      ∀ p, p + 4 ≤ s.ilen.toNat → ¬ MarkerAt s.ibuf s.marker p := by
  refine ⟨by decide, loaded_riff_hasBytes 11 (by decide), ?_⟩
  intro p hp
  have h : ∀ q, q < 8 → ¬ MarkerAt (loaded riffBytes).ibuf (loaded riffBytes).marker q := by
    unfold MarkerAt
    decide
  exact h p (by simp at hp; omega)

theorem witness_LocShortBufferFindsNothing :
    (tagData.length = 4 ∧ [0x64#8, 0x61#8, 0x74#8].length < 4) ∧
      (let s := { State.reset with ilen := 3#32 }; s.ilen.toNat < 4 ∧ s.ilen.toNat ≤ s.cfg.ibufSize) := by decide

theorem witness_LocateIsTheLeastPosition : tagData.length = 4 ∧ BytesAt riffBytes tagData 8 := by
  refine ⟨by decide, by decide, ?_⟩
  decide

theorem witness_LocRefinesLocate :
    (loaded riffBytes).ilen.toNat ≤ (loaded riffBytes).cfg.ibufSize ∧
      (loaded riffBytes).ibuf.readBytes 0 (loaded riffBytes).ilen.toNat = .ok riffBytes := ⟨by decide, rfl⟩

theorem witness_HdrWritesTheLayout :
    0xFFFFFFCD < ({ State.reset with plen := 0xFFFFFFCE#32 } : State).plen.toNat ∧
      ({ State.reset with plen := 0xFFFFFFCD#32 } : State).plen.toNat ≤ 0xFFFFFFCD := by decide

theorem witness_HeaderSizeFields : (4294967245 : Nat) ≤ 0xFFFFFFCD := by decide

theorem witness_UnwrittenOperandByteFaults_encm :
    (let s := { encmEdge with ibuf := [] };
      s.ilen.toNat ≤ s.cfg.ibufSize ∧ s.src.toNat + 2 ≤ s.ilen.toNat ∧ s.dst.toNat < s.cfg.obufSize ∧
        s.ibuf.read s.src.toNat = none) ∧
      (let s := { encmEdge with ibuf := [(8, 0x01#8)] };
        s.ilen.toNat ≤ s.cfg.ibufSize ∧ s.src.toNat + 2 ≤ s.ilen.toNat ∧ s.dst.toNat < s.cfg.obufSize ∧
          s.ibuf.read s.src.toNat = some 0x01#8 ∧ s.ibuf.read (s.src.toNat + 1) = none) := by decide

theorem witness_UnwrittenOperandByteFaults_loc :
    let s := { State.reset with ilen := 4#32 }
    s.ilen.toNat ≤ s.cfg.ibufSize ∧ 0 + 4 ≤ s.ilen.toNat ∧ s.ibuf.hasBytes 0 0 ∧ s.ibuf.read 0 = none ∧
      ∀ q, q + 4 ≤ 0 → ¬ MarkerAt s.ibuf s.marker q := by
  refine ⟨by decide, by decide, ?_, by decide, ?_⟩
  · intro k hk
    omega
  · intro q hq
    omega

/-- A state of a run that meets the invariant: a container loaded, its marker found, a command pending. -/
theorem witness_StepKeepsTheInvariant :
    let s := State.withFetchWord { loaded riffBytes with offset := 8#32, status := 0x21#32 } 32 0x03000000
    s.Inv ∧ ∃ t, step s = .next t := by
  refine ⟨?_, _, rfl⟩
  constructor <;> decide

theorem witness_StepKeepsTheParameters : ∃ t, step State.reset = .next t := ⟨_, rfl⟩

theorem witness_FailedCommandChangesOnlyErr :
    ∃ t, perform (.writeReg 0 0x06000000#32) State.reset = .next t ∧ t.err ≠ 0 := by
  refine ⟨_, rfl, ?_⟩
  decide

theorem witness_ErrorCodesAndTheirCauses :
    ((nextOf (perform (.writeReg 0 0x03000000#32) State.reset)).map (·.err),
      (nextOf (perform (.writeReg 0 0x05000000#32) { State.reset with plen := 0xFFFFFFCE#32 })).map (·.err)) =
      (some 2, some 3) := by decide

theorem witness_FoundChangesOnlyByLocAndRst :
    ∃ t, exec .loc { loaded riffBytes with ilen := 65#32 } = .next t ∧ (Instr.loc ≠ .rst) ∧ t.err ≠ 0 := by
  refine ⟨_, rfl, ?_, ?_⟩ <;> decide

theorem witness_CommandsWriteOnlyTheirColumns : ∃ t, exec .encm encmEdge = .next t := ⟨_, rfl⟩

theorem witness_IbufBeyondIlenIsNeverRead :
    ∀ a, a < encmEdge.ilen.toNat →
      Memory.read (encmEdge.ibuf.write 10 0xEE#8) a = encmEdge.ibuf.read a := by decide

theorem witness_PreparedEventsComplete :
    encmEdge.Ready .encm ∧ HostEvent.Safe encmEdge (.readByte .ibuf 9) ∧
      HostEvent.Safe encmEdge (.writeReg 0 0x04000000#32) := by
  refine ⟨?_, ⟨by decide, _, rfl⟩, by decide, ?_⟩
  · intro _ k hk
    have : k < 2 := hk
    interval_cases k <;> exact ⟨_, rfl⟩
  · intro _ c hc
    have e : decode 0x04000000#32 = .ok .loc := by decide
    rw [e] at hc
    cases hc
    intro _ k hk
    have : k < 10 := hk
    interval_cases k <;> exact ⟨_, rfl⟩

theorem witness_CommandsStopOnlyOnUnwrittenBytes :
    faultOf (exec .loc { State.reset with ilen := 4#32 }) = some (.unwrittenByte .ibuf 0) := by decide

theorem witness_TableIsTheLeadingBit :
    (1 ≤ 1 ∧ 1 ≤ 255 ∧ 2 ^ 0 ≤ 1 ∧ 1 < 2 ^ (0 + 1)) ∧ (1 ≤ 255 ∧ 255 ≤ 255 ∧ 2 ^ 7 ≤ 255 ∧ 255 < 2 ^ (7 + 1)) := by decide

theorem witness_signs :
    (resetConfig.signNonneg = 0x80#8 ∧ resetConfig.ctab = ctabR27) ∧
      ({ resetConfig with signNonneg := 0x00#8 } : Config).signNonneg = 0x00#8 := ⟨⟨rfl, rfl⟩, rfl⟩

theorem witness_UlawSignSymmetry :
    (1 ≤ (0x0001#16 : Sample).toInt ∧ (0x0001#16 : Sample).toInt ≤ 32767) ∧
      (1 ≤ (0x7FFF#16 : Sample).toInt ∧ (0x7FFF#16 : Sample).toInt ≤ 32767) ∧
      (0x0005#16 : Sample).toInt.natAbs = (0xFFFB#16 : Sample).toInt.natAbs ∧
      ((0x0005#16 : Sample).toInt < 0 ↔ (0x7FFF#16 : Sample).toInt < 0) := by decide

theorem witness_UlawExtremes :
    (0 ≤ (0x0003#16 : Sample).toInt ∧ (0x0003#16 : Sample).toInt ≤ 3) ∧
      (-3 ≤ (0xFFFD#16 : Sample).toInt ∧ (0xFFFD#16 : Sample).toInt ≤ -1) ∧
      31612 ≤ (0x7B7C#16 : Sample).toInt ∧ (0x8484#16 : Sample).toInt ≤ -31612 := by decide

theorem witness_LowBitsFallWithMagnitude :
    ThisHardware resetConfig ∧ (0x0003#16 : Sample).toInt.natAbs ≤ (0x8000#16 : Sample).toInt.natAbs :=
  ⟨⟨rfl, rfl⟩, by decide⟩

theorem witness_MemReadAfterMemWrite : 3 < 4 ∧ 4 + 2 ≤ 6 := by decide

theorem witness_StoresKeepTheCanonicalForm :
    Memory.wf [(3, 0x01#8)] = true ∧ Memory.below 64 [(3, 0x01#8)] = true ∧ 62 + 2 ≤ 64 := by decide

theorem witness_TranscodeOutput :
    State.reset.cfg.legal = true ∧ oneSample.length ≤ State.reset.cfg.ibufSize ∧ locate tagData oneSample = some 0 ∧
      0 + 8 ≤ oneSample.length ∧ 58 + sampleCount oneSample.length 0 ≤ State.reset.cfg.obufSize ∧
      oneSample[8]? = some 0xFF#8 ∧ oneSample[9]? = some 0x7F#8 := by decide

theorem witness_TranscodeAborts :
    State.reset.cfg.legal = true ∧ State.reset.cfg.ibufSize < (List.replicate 65 0x00#8).length ∧
      locate tagData (List.replicate 64 0x00#8) = none ∧
      (locate tagData riffBytes = some 8 ∧ riffBytes.length < 8 + 8) ∧
      (locate tagData (oneSample ++ List.replicate 12 0x00#8) = some 0 ∧
        0 + 8 ≤ (oneSample ++ List.replicate 12 0x00#8).length ∧
        State.reset.cfg.obufSize < 58 + sampleCount (oneSample ++ List.replicate 12 0x00#8).length 0) := by decide

theorem witness_ConcatOutput :
    State.reset.cfg.legal = true ∧ boxA.length ≤ State.reset.cfg.ibufSize ∧ boxB.length ≤ State.reset.cfg.ibufSize ∧
      HoldsPayload boxA 0 [0x11#8] ∧ HoldsPayload boxB 1 [0x22#8, 0x33#8] ∧
      58 + [0x11#8].length + [0x22#8, 0x33#8].length ≤ State.reset.cfg.obufSize := by
  unfold HoldsPayload
  decide

theorem witness_MacrosForgetEarlierSequences :
    State.reset.cfg.legal = true ∧ (loaded riffBytes).cfg = State.reset.cfg := ⟨by decide, rfl⟩

theorem witness_CommandLinesWriteTheirWords :
    (-32768 ≤ (-32768 : Int) ∧ (-32768 : Int) ≤ 65535) ∧ (-32768 ≤ (65535 : Int) ∧ (65535 : Int) ≤ 65535) := by decide

theorem witness_EncsAndCheck :
    (-32768 ≤ (-1 : Int) ∧ (-1 : Int) ≤ 65535) ∧ ({ State.reset with status := 0x10#32 } : State).err ≠ 0 ∧
      State.reset.err = 0 := by decide

/-- Two plain lines and the last two places of `OBUF`. -/
theorem witness_SequenceOutputsTheRangeItNames :
    let ls : List AsmLine := [.wb .obuf 62 0x55, .wb .obuf 63 0x66]
    (∀ l ∈ ls, ∃ es, l.events = some es) ∧
      ∃ t, performAll (ls.flatMap (fun l => l.events.getD [])) State.reset = .next t ∧ 62 + 2 ≤ t.cfg.obufSize ∧
        t.obuf.readBytes 62 2 = .ok [0x55#8, 0x66#8] := by
  refine ⟨?_, _, rfl, by decide, rfl⟩
  intro l hl
  simp only [List.mem_cons, List.not_mem_nil, or_false] at hl
  rcases hl with rfl | rfl <;> exact ⟨_, rfl⟩

end Sys2Proof.Tests
end

/-! # What one step can do, and what every step keeps (obligations O32 and O33)

`Effect` says once everything an event can do to the block, guards included; `exec_effect`, `perform_effect` and
`step_effect` tie it to the model. The two obligations are then case splits over `Effect`. -/

namespace Sys2Proof.Machine

/-- The next states an event can lead to from `s`, one constructor per kind of update, with the guard under which the
model makes it. -/
inductive Effect (s : State) : State → Prop
  /-- `NOP` (43_control_commands R151). -/
  | completed : Effect s (s.setErr 0#4)
  /-- A command that fails (60_exceptions R182). -/
  | raised (k : ErrKind) : Effect s (s.setErr k.errCode)
  /-- `ENC` and `ENCI` (41_sample_encoder R115, R116). -/
  | encoded (x : Sample) : Effect s (State.setErr 0#4 { s with code := ulaw s.cfg x })
  /-- `ENCM` (41_sample_encoder R117). -/
  | encodedToMemory (x : Sample) (hbounds : encmOutOfBounds s = false) (hx : bufferOperand s = .ok x) :
      Effect s (State.setErr 0#4
        { s with obuf := s.obuf.write s.dst.toNat (ulaw s.cfg x), code := ulaw s.cfg x,
                 src := s.src + 2#32, dst := s.dst + 1#32 })
  /-- `LOC` with the marker in the buffer (40_chunk_locator R84). -/
  | located (p : Nat) (hilen : ilenTooLong s = false)
      (hp : search s.ibuf (markerBytes s.marker) s.ilen.toNat = .ok (some p)) :
      Effect s (State.setErr 0#4 (State.setFound true { s with offset := BitVec.ofNat 32 p }))
  /-- `LOC` without (40_chunk_locator R84, R85). -/
  | notLocated (hilen : ilenTooLong s = false)
      (hp : search s.ibuf (markerBytes s.marker) s.ilen.toNat = .ok none) :
      Effect s (State.setErr 0#4 (State.setFound false { s with offset := 0#32 }))
  /-- `HDR` (42_header_synthesizer R142). -/
  | headerStored (hplen : ¬ plenLimit < s.plen.toNat) :
      Effect s (State.setErr 0#4 { s with obuf := s.obuf.writeBytes 0 (header s.plen.toNat) })
  /-- `RST` (43_control_commands R152). -/
  | registersReset : Effect s (resetRegisters s)
  /-- A host write of a register other than `CMD` (10_state R14 to R24). -/
  | slotWritten (slot : Slot) (v : Word) : Effect s (s.writeSlot v slot)
  /-- A host read (10_state R11): only the model's own list of answers grows. -/
  | answered (a : Answer) : Effect s { s with answers := a :: s.answers }
  /-- A host write of a buffer byte (10_state R11). -/
  | byteWritten (sp : Space) (a : Nat) (v : Byte) (ha : a < sp.size s.cfg) :
      Effect s (s.setBuf sp ((s.buf sp).write a v))
  /-- Hardware reset (70_reset R200). -/
  | hardwareReset : Effect s (hardwareResetState s)

variable {s t : State}

/-! ## Every answer of the model is an `Effect` -/

theorem exec_encm_effect (h : exec .encm s = .next t) : Effect s t := by
  obtain ⟨-, he⟩ | ⟨-, a, -, he⟩ | ⟨hbounds, x, hx, he⟩ := exec_encm_cases s <;> rw [he] at h <;> cases h
  · exact .raised .bounds
  · exact .encodedToMemory x hbounds hx

theorem exec_loc_effect (h : exec .loc s = .next t) : Effect s t := by
  obtain ⟨-, he⟩ | ⟨-, a, -, he⟩ | ⟨hilen, p, hp, he⟩ | ⟨hilen, hp, he⟩ := exec_loc_cases s <;>
    rw [he] at h <;> cases h
  · exact .raised .bounds
  · exact .located p hilen hp
  · exact .notLocated hilen hp

theorem exec_hdr_effect (h : exec .hdr s = .next t) : Effect s t := by
  obtain ⟨-, he⟩ | ⟨hplen, he⟩ := exec_hdr_cases s <;> rw [he] at h <;> cases h
  · exact .raised .len
  · exact .headerStored hplen

theorem exec_effect {i : Instr} (h : exec i s = .next t) : Effect s t := by
  cases i with
  | nop => rw [exec_nop] at h; cases h; exact .completed
  | enc => rw [exec_enc] at h; cases h; exact .encoded s.sample
  | enci imm => rw [exec_enci] at h; cases h; exact .encoded imm
  | encm => exact exec_encm_effect h
  | loc => exact exec_loc_effect h
  | hdr => exact exec_hdr_effect h
  | rst => rw [exec_rst] at h; cases h; exact .registersReset

theorem runCommand_effect {w : Word} (h : runCommand w s = .next t) : Effect s t := by
  unfold runCommand at h
  split at h
  · exact exec_effect h
  · cases h; exact .raised .illegal

theorem hostWriteReg_effect {i : Nat} {v : Word} (h : hostWriteReg i v s = .next t) : Effect s t := by
  unfold hostWriteReg at h
  split at h
  · cases h
  · exact runCommand_effect h
  · cases h; exact .slotWritten _ v

theorem hostReadReg_effect {i : Nat} (h : hostReadReg i s = .next t) : Effect s t := by
  unfold hostReadReg at h
  split at h
  · cases h
  · cases h; exact .answered _

theorem hostWriteByte_effect {sp : Space} {a : Nat} {v : Byte} (h : hostWriteByte sp a v s = .next t) :
    Effect s t := by
  unfold hostWriteByte at h
  split at h
  · cases h; exact .byteWritten sp a v ‹_›
  · cases h

theorem hostReadByte_effect {sp : Space} {a : Nat} (h : hostReadByte sp a s = .next t) : Effect s t := by
  unfold hostReadByte at h
  split at h
  · split at h
    · cases h; exact .answered _
    · cases h
  · cases h

theorem perform_effect {e : HostEvent} (h : perform e s = .next t) : Effect s t := by
  cases e with
  | writeReg i v => exact hostWriteReg_effect h
  | readReg i => exact hostReadReg_effect h
  | writeByte sp a v => exact hostWriteByte_effect h
  | readByte sp a => exact hostReadByte_effect h
  | hardwareReset => cases h; exact .hardwareReset

/-- A step idles, or takes the oldest pending event from the list and performs it. -/
theorem step_effect (h : step s = .next t) :
    t = s ∨ ∃ e rest, s.pending = e :: rest ∧ Effect { s with pending := rest } t := by
  unfold step nextEvent at h
  split at h
  · cases h; exact .inl rfl
  · exact .inr ⟨_, _, ‹_›, perform_effect h⟩

/-! ## The parameters -/

theorem writeSlot_cfg (s : State) (v : Word) (slot : Slot) : (s.writeSlot v slot).cfg = s.cfg := by
  cases slot <;> rfl

theorem setBuf_cfg (s : State) (sp : Space) (m : Memory) : (s.setBuf sp m).cfg = s.cfg := by
  cases sp <;> rfl

theorem Effect.keeps_cfg (h : Effect s t) : t.cfg = s.cfg := by
  cases h with
  | slotWritten slot v => exact writeSlot_cfg s v slot
  | byteWritten sp a v => exact setBuf_cfg s sp _
  | _ => rfl

/-- Settles O33: no effect touches `cfg`. -/
theorem stepKeepsTheParameters : Obligations.StepKeepsTheParameters := by
  intro s t h
  obtain rfl | ⟨e, rest, -, heff⟩ := step_effect h
  · rfl
  · exact heff.keeps_cfg

/-! ## The invariant under each update of the state -/

/-- The invariant speaks of the parameters, the buffers, `STATUS` and `OFFSET` only. -/
theorem State.Inv.of_same_fields (h : s.Inv) (hcfg : t.cfg = s.cfg) (hibuf : t.ibuf = s.ibuf)
    (hobuf : t.obuf = s.obuf) (hstatus : t.status = s.status) (hoffset : t.offset = s.offset) : t.Inv where
  cfg_legal := by rw [hcfg]; exact h.cfg_legal
  ibuf_wf := by rw [hibuf]; exact h.ibuf_wf
  obuf_wf := by rw [hobuf]; exact h.obuf_wf
  ibuf_below := by rw [hibuf, hcfg]; exact h.ibuf_below
  obuf_below := by rw [hobuf, hcfg]; exact h.obuf_below
  status_reserved := by rw [hstatus]; exact h.status_reserved
  err_code := by rw [State.err, hstatus]; exact h.err_code
  offset_found := by rw [State.found, hstatus, hoffset, hcfg]; exact h.offset_found
  offset_not_found := by rw [State.found, hstatus, hoffset]; exact h.offset_not_found

theorem State.Inv.setErr {e : BitVec 4} (h : s.Inv) (he : e.toNat ≤ 3) : (s.setErr e).Inv where
  cfg_legal := h.cfg_legal
  ibuf_wf := h.ibuf_wf
  obuf_wf := h.obuf_wf
  ibuf_below := h.ibuf_below
  obuf_below := h.obuf_below
  status_reserved := by simpa using h.status_reserved
  err_code := by simpa using he
  offset_found := by simpa using h.offset_found
  offset_not_found := by simpa using h.offset_not_found

theorem State.Inv.succeeds (h : s.Inv) : (s.setErr 0#4).Inv := h.setErr (by decide)

/-- `FOUND` and `OFFSET` written together, as `LOC` does (40_chunk_locator R84). -/
theorem State.Inv.setFound_offset {f : Bool} {o : Word} (h : s.Inv)
    (hfound : f = true → o.toNat + 4 ≤ s.cfg.ibufSize) (hnot : f = false → o = 0#32) :
    (State.setFound f { s with offset := o }).Inv where
  cfg_legal := h.cfg_legal
  ibuf_wf := h.ibuf_wf
  obuf_wf := h.obuf_wf
  ibuf_below := h.ibuf_below
  obuf_below := h.obuf_below
  status_reserved := by simpa using h.status_reserved
  err_code := by rw [setFound_err]; exact h.err_code
  offset_found := by simpa using hfound
  offset_not_found := by simpa using hnot

theorem State.Inv.setBuf {sp : Space} {m : Memory} (h : s.Inv) (hwf : m.wf = true)
    (hbelow : m.below (sp.size s.cfg) = true) : (s.setBuf sp m).Inv := by
  cases sp with
  | ibuf => exact { h with ibuf_wf := hwf, ibuf_below := hbelow }
  | obuf => exact { h with obuf_wf := hwf, obuf_below := hbelow }

theorem State.Inv.buf_wf (h : s.Inv) (sp : Space) : (s.buf sp).wf = true := by
  cases sp with
  | ibuf => exact h.ibuf_wf
  | obuf => exact h.obuf_wf

theorem State.Inv.buf_below (h : s.Inv) (sp : Space) : (s.buf sp).below (sp.size s.cfg) = true := by
  cases sp with
  | ibuf => exact h.ibuf_below
  | obuf => exact h.obuf_below

theorem State.Inv.writeByte {sp : Space} {a : Nat} (h : s.Inv) (v : Byte) (ha : a < sp.size s.cfg) :
    (s.setBuf sp ((s.buf sp).write a v)).Inv :=
  h.setBuf (Memory.wf_write _ a v (h.buf_wf sp)) (Memory.below_write _ v ha (h.buf_below sp))

theorem State.Inv.writeBytes {sp : Space} {a : Nat} {bs : List Byte} (h : s.Inv)
    (ha : a + bs.length ≤ sp.size s.cfg) : (s.setBuf sp ((s.buf sp).writeBytes a bs)).Inv :=
  h.setBuf (Memory.wf_writeBytes _ a bs (h.buf_wf sp)) (Memory.below_writeBytes _ bs ha (h.buf_below sp))

theorem State.Inv.writeSlot (h : s.Inv) (v : Word) (slot : Slot) : (s.writeSlot v slot).Inv := by
  cases slot <;> exact h.of_same_fields rfl rfl rfl rfl rfl

/-- The registers of 10_state R31 meet the invariant over any buffers that do. -/
theorem State.Inv.resetRegisters (h : s.Inv) : (resetRegisters s).Inv where
  cfg_legal := h.cfg_legal
  ibuf_wf := h.ibuf_wf
  obuf_wf := h.obuf_wf
  ibuf_below := h.ibuf_below
  obuf_below := h.obuf_below
  status_reserved := by simp
  err_code := by simp
  offset_found := by simp
  offset_not_found := by simp

/-- Hardware reset is `RST` with both buffers emptied (70_reset R200). -/
theorem State.Inv.hardwareReset (h : s.Inv) : (hardwareResetState s).Inv :=
  (h.resetRegisters.setBuf (sp := .ibuf) (m := []) rfl rfl).setBuf (sp := .obuf) (m := []) rfl rfl

/-- R5's constraint `58 <= OBUF_SIZE`, which is why `HDR` needs no bounds check (20_memory R45). -/
theorem State.Inv.header_fits (h : s.Inv) : 58 ≤ s.cfg.obufSize := by
  have hlegal := h.cfg_legal
  simp only [Config.legal, Bool.and_eq_true, decide_eq_true_eq] at hlegal
  omega

/-- A marker found below `ILEN` lies in the input buffer, and its position fits the register. -/
theorem located_offset_le {p : Nat} (hilen : ilenTooLong s = false)
    (hp : search s.ibuf (markerBytes s.marker) s.ilen.toNat = .ok (some p)) :
    (BitVec.ofNat 32 p).toNat + 4 ≤ s.cfg.ibufSize := by
  have hle : p + 4 ≤ s.ilen.toNat := search_found_le _ _ _ _ hp
  have hsize : s.ilen.toNat ≤ s.cfg.ibufSize := (ilenTooLong_false_iff s).mp hilen
  have hmod : (BitVec.ofNat 32 p).toNat ≤ p := by
    rw [BitVec.toNat_ofNat]; exact Nat.mod_le _ _
  omega

theorem Effect.keeps_inv (heff : Effect s t) (h : s.Inv) : t.Inv := by
  cases heff with
  | completed => exact h.succeeds
  | raised k => exact h.setErr (errCode_toNat_le k)
  | encoded x => exact State.Inv.succeeds (h.of_same_fields rfl rfl rfl rfl rfl)
  | encodedToMemory x hbounds hx =>
    obtain ⟨-, -, hdst⟩ := (encmOutOfBounds_false_iff s).mp hbounds
    exact State.Inv.succeeds
      ((h.writeByte (sp := .obuf) (ulaw s.cfg x) hdst).of_same_fields rfl rfl rfl rfl rfl)
  | located p hilen hp =>
    exact (h.setFound_offset (f := true) (fun _ => located_offset_le hilen hp) nofun).succeeds
  | notLocated hilen hp => exact (h.setFound_offset (f := false) nofun (fun _ => rfl)).succeeds
  | headerStored hplen =>
    have hfits : 0 + (header s.plen.toNat).length ≤ s.cfg.obufSize := by simpa using h.header_fits
    exact (h.writeBytes (sp := .obuf) hfits).succeeds
  | registersReset => exact h.resetRegisters
  | slotWritten slot v => exact h.writeSlot v slot
  | answered a => exact h.of_same_fields rfl rfl rfl rfl rfl
  | byteWritten sp a v ha => exact h.writeByte v ha
  | hardwareReset => exact h.hardwareReset

/-- Settles O32: taking an event from the list leaves the invariant, and every effect keeps it. -/
theorem stepKeepsTheInvariant : Obligations.StepKeepsTheInvariant := by
  intro s t h hstep
  obtain rfl | ⟨e, rest, -, heff⟩ := step_effect hstep
  · exact h
  · exact heff.keeps_inv (h.of_same_fields rfl rfl rfl rfl rfl)

end Sys2Proof.Machine

/-! # The host's register and byte actions, slot by slot (obligations O7, O11 to O17) -/

namespace Sys2Proof.Machine

open Sys2Proof.Claims

/-! ## Register indices and slots (10_state R12, R23) -/

@[simp] theorem slotOf_slotIndex (slot : Slot) : slotOf (slotIndex slot) = some slot := by cases slot <;> rfl

theorem slotOf_of_ge {i : Nat} (h : 10 ≤ i) : slotOf i = if i < 16 then some .reserved else none := by
  unfold slotOf
  split
  case h_11 => rfl
  all_goals omega

theorem exists_slotOf {i : Nat} (h : i < 16) : ∃ slot, slotOf i = some slot := by
  interval_cases i <;> exact ⟨_, rfl⟩

/-- An index names its slot, or is one of the six reserved ones. -/
theorem slotOf_eq_some {i : Nat} {slot : Slot} (h : slotOf i = some slot) :
    i = slotIndex slot ∨ (slot = .reserved ∧ 10 ≤ i) := by
  by_cases hi : 10 ≤ i
  · rw [slotOf_of_ge hi] at h
    split at h <;> cases h
    exact .inr ⟨rfl, hi⟩
  · left
    interval_cases i <;> cases h <;> rfl

/-- Only index 0 is `CMD`. -/
theorem slotOf_ne_cmd {i : Nat} {slot : Slot} (h : slotOf i = some slot) (hi : i ≠ 0) : slot ≠ .cmd := by
  rintro rfl
  obtain rfl | ⟨hres, -⟩ := slotOf_eq_some h
  · exact hi rfl
  · cases hres

theorem implementedBits_of_ge {i : Nat} (h : 10 ≤ i) : implementedBits i = 0#32 := by
  unfold implementedBits
  split
  case h_10 => rfl
  all_goals omega

theorem implementedBits_of_slotOf {i : Nat} {slot : Slot} (h : slotOf i = some slot) :
    implementedBits i = implementedBits (slotIndex slot) := by
  obtain rfl | ⟨rfl, hi⟩ := slotOf_eq_some h
  · rfl
  · exact implementedBits_of_ge hi

/-! ## Host register actions by slot -/

variable (s : State)

theorem perform_readReg {i : Nat} {slot : Slot} (h : slotOf i = some slot) :
    perform (.readReg i) s = .next { s with answers := .reg i (s.readSlot slot) :: s.answers } := by
  simp [perform, hostReadReg, h]

theorem perform_readReg_missing {i : Nat} (h : slotOf i = none) :
    perform (.readReg i) s = .refused (.noSuchRegister i) := by
  simp [perform, hostReadReg, h]

theorem perform_writeReg {i : Nat} {slot : Slot} (v : Word) (h : slotOf i = some slot) (hcmd : slot ≠ .cmd) :
    perform (.writeReg i v) s = .next (s.writeSlot v slot) := by
  cases slot with
  | cmd => exact absurd rfl hcmd
  | _ => simp [perform, hostWriteReg, h]

theorem perform_writeReg_missing {i : Nat} (v : Word) (h : slotOf i = none) :
    perform (.writeReg i v) s = .refused (.noSuchRegister i) := by
  simp [perform, hostWriteReg, h]

/-! ## The implemented bits (10_state R12)

A field of `n` bits that is read zero-extended is masked by `n` ones; the masks of `SAMPLE` and `CODE` are such runs. -/

theorem zext32_and_not_ones {n : Nat} (v : BitVec n) :
    zext32 v &&& ~~~ (BitVec.allOnes n).setWidth 32 = 0#32 := by
  ext i hi
  by_cases h : i < n
  · simp [zext32, h]
  · simp [zext32, BitVec.getLsbD_of_ge v i (Nat.not_lt.mp h)]

theorem zext32_low_eq_and_ones (w : Word) (n : Nat) :
    zext32 (w.extractLsb' 0 n) = w &&& (BitVec.allOnes n).setWidth 32 := by
  ext i hi
  by_cases h : i < n <;> simp [zext32, h, hi]

theorem low_and_ones (w : Word) {n : Nat} (hn : n ≤ 32) :
    (w &&& (BitVec.allOnes n).setWidth 32).extractLsb' 0 n = w.extractLsb' 0 n := by
  ext i hi
  have h32 : i < 32 := by omega
  simp [hi, h32]

theorem readSlot_and_not_implemented (slot : Slot) :
    s.readSlot slot &&& ~~~ implementedBits (slotIndex slot) = 0#32 := by
  cases slot with
  | status => simp [State.readSlot, implementedBits, slotIndex, BitVec.and_assoc]
  | sample => exact zext32_and_not_ones s.sample
  | code => exact zext32_and_not_ones s.code
  | _ => simp [State.readSlot, implementedBits, slotIndex]

theorem writeSlot_and_implemented (w : Word) (slot : Slot) :
    s.writeSlot (w &&& implementedBits (slotIndex slot)) slot = s.writeSlot w slot := by
  cases slot with
  | sample => exact congrArg (fun x => { s with sample := x }) (low_and_ones w (n := 16) (by decide))
  | _ => simp [State.writeSlot, implementedBits, slotIndex, and_allOnes32]

/-- The slots a host write changes, `CMD` apart (10_state R24). -/
def hostWritable : List Slot := [.sample, .marker, .ilen, .src, .dst, .plen]

theorem readSlot_writeSlot (w : Word) {slot : Slot} (h : slot ∈ hostWritable) :
    (s.writeSlot w slot).readSlot slot = w &&& implementedBits (slotIndex slot) := by
  cases slot with
  | sample => exact zext32_low_eq_and_ones w 16
  | cmd | status | code | offset | reserved => exact absurd h (by decide)
  | _ => simp [State.writeSlot, State.readSlot, implementedBits, slotIndex, and_allOnes32]

theorem writeSlot_status (v : Word) (slot : Slot) : (s.writeSlot v slot).status = s.status := by
  cases slot <;> rfl

theorem writeSlot_answers (v : Word) (slot : Slot) : (s.writeSlot v slot).answers = s.answers := by
  cases slot <;> rfl

theorem writeSlot_sample (v : Word) : s.writeSlot v .sample = { s with sample := v.setWidth 16 } := by
  simp [State.writeSlot, BitVec.setWidth_eq_extractLsb' (show 16 ≤ 32 by decide)]

/-! ## Host byte actions (10_state R11) -/

theorem perform_writeByte {sp : Space} {a : Nat} (v : Byte) (h : a < sp.size s.cfg) :
    perform (.writeByte sp a v) s = .next (s.setBuf sp ((s.buf sp).write a v)) := if_pos h

theorem perform_writeByte_outside {sp : Space} {a : Nat} (v : Byte) (h : sp.size s.cfg ≤ a) :
    perform (.writeByte sp a v) s = .refused (.noSuchAddress sp a) := if_neg (Nat.not_lt.mpr h)

theorem perform_readByte_unwritten {sp : Space} {a : Nat} (h : a < sp.size s.cfg)
    (hnone : (s.buf sp).read a = none) : perform (.readByte sp a) s = .fault (.unwrittenByte sp a) := by
  simp [perform, hostReadByte, h, hnone]

theorem perform_readByte_outside {sp : Space} {a : Nat} (h : sp.size s.cfg ≤ a) :
    perform (.readByte sp a) s = .refused (.noSuchAddress sp a) := if_neg (Nat.not_lt.mpr h)

@[simp] theorem buf_setBuf_same (sp : Space) (m : Memory) : (s.setBuf sp m).buf sp = m := by cases sp <;> rfl

theorem buf_setBuf_other {sp sp' : Space} (m : Memory) (h : sp' ≠ sp) : (s.setBuf sp m).buf sp' = s.buf sp' := by
  cases sp <;> cases sp'
  case ibuf.obuf | obuf.ibuf => rfl
  case ibuf.ibuf | obuf.obuf => exact absurd rfl h

theorem setBuf_frame (sp : Space) (m : Memory) :
    s.setBuf sp m = { s with ibuf := (s.setBuf sp m).ibuf, obuf := (s.setBuf sp m).obuf } := by
  cases sp <;> rfl

theorem setBuf_status (sp : Space) (m : Memory) : (s.setBuf sp m).status = s.status := by cases sp <;> rfl

/-- Of what the host can do, only a write of `CMD` and a hardware reset reach `STATUS` (10_state R24). -/
theorem perform_keeps_status {s t : State} {e : HostEvent} (h : perform e s = .next t)
    (hcmd : ∀ w, e ≠ .writeReg 0 w) (hreset : e ≠ .hardwareReset) : t.status = s.status := by
  cases e with
  | writeReg i v =>
    cases hslot : slotOf i with
    | none => rw [perform_writeReg_missing s v hslot] at h; cases h
    | some slot =>
      have hi : i ≠ 0 := fun h0 => hcmd v (by rw [h0])
      rw [perform_writeReg s v hslot (slotOf_ne_cmd hslot hi)] at h
      cases h
      exact writeSlot_status s v slot
  | readReg i =>
    cases hslot : slotOf i with
    | none => rw [perform_readReg_missing s hslot] at h; cases h
    | some slot => rw [perform_readReg s hslot] at h; cases h; rfl
  | writeByte sp a v =>
    by_cases ha : a < sp.size s.cfg
    · rw [perform_writeByte s v ha] at h
      cases h
      exact setBuf_status s sp _
    · rw [perform_writeByte_outside s v (Nat.not_lt.mp ha)] at h
      cases h
  | readByte sp a =>
    by_cases ha : a < sp.size s.cfg
    · cases hv : (s.buf sp).read a with
      | none => rw [perform_readByte_unwritten s ha hv] at h; cases h
      | some v =>
        have hread : perform (.readByte sp a) s = _ := hostReadByte_eq sp a v s ha hv
        rw [hread] at h
        cases h
        rfl
    · rw [perform_readByte_outside s (Nat.not_lt.mp ha)] at h
      cases h
  | hardwareReset => exact absurd rfl hreset

/-! ## The obligations about the host's actions -/

/-- Settles O11: slot by slot from `writeSlot`, and `STATUS` from the event's kind. -/
theorem hostWriteRegEffects : Obligations.HostWriteRegEffects := by
  intro s v
  have hsample : perform (.writeReg 2 v) s = .next (s.writeSlot v .sample) := rfl
  rw [writeSlot_sample] at hsample
  exact ⟨rfl, hsample, rfl, rfl, rfl, rfl, rfl, rfl, rfl, fun _ _ => perform_keeps_status⟩

/-- Settles O13: both halves are facts about the slot of the index. -/
theorem unimplementedBitsReadZero : Obligations.UnimplementedBitsReadZero := by
  intro s i hi
  obtain ⟨slot, hslot⟩ := exists_slotOf hi
  rw [implementedBits_of_slotOf hslot]
  refine ⟨⟨_, perform_readReg s hslot, readSlot_and_not_implemented s slot⟩, fun w hi0 => ?_⟩
  have hcmd : slot ≠ .cmd := slotOf_ne_cmd hslot hi0
  refine ⟨_, perform_writeReg s w hslot hcmd, ?_⟩
  rw [perform_writeReg s _ hslot hcmd, writeSlot_and_implemented]

/-- Settles O14: the index is that of a slot the host may write. -/
theorem hostWriteThenRead : Obligations.HostWriteThenRead := by
  intro s i w hi
  have hslots : ∀ i ∈ [2, 4, 6, 7, 8, 9], ∃ slot ∈ hostWritable, i = slotIndex slot := by decide
  obtain ⟨slot, hwritable, rfl⟩ := hslots i hi
  have hcmd : slot ≠ .cmd := by rintro rfl; exact absurd hwritable (by decide)
  simp only [performAll, perform_writeReg s w (slotOf_slotIndex slot) hcmd, andThen_next,
    perform_readReg _ (slotOf_slotIndex slot), readSlot_writeSlot s w hwritable, writeSlot_answers]

/-- Settles O16, from the read-after-write laws of one buffer and of the pair of buffers. -/
theorem hostWriteByteEffects : Obligations.HostWriteByteEffects := by
  intro s sp a v
  refine ⟨fun ha => ⟨_, perform_writeByte s v ha, by simp, ?_, setBuf_frame s sp _⟩,
    perform_writeByte_outside s v⟩
  intro sp' b hother
  by_cases hsp : sp' = sp
  · subst hsp
    have hb : b ≠ a := hother.resolve_left (not_not_intro rfl)
    rw [buf_setBuf_same, Memory.read_write_other _ v hb]
  · rw [buf_setBuf_other s _ hsp]

/-- Settles O7: the step takes the event and the decoder names the command. -/
theorem stepRunsTheCommand : Obligations.StepRunsTheCommand := by
  intro s w rest i hpending hdecode
  have hevent : step s = runCommand w { s with pending := rest } := by
    simp [step, nextEvent, hpending, perform, hostWriteReg, slotOf]
  rw [hevent, runCommand, hdecode]

/-- Settles O12: `readSlot`, slot by slot. -/
theorem hostReadRegReturns : Obligations.HostReadRegReturns := by
  intro s
  exact ⟨perform_readReg s (slot := .cmd) rfl, perform_readReg s (slot := .status) rfl,
    perform_readReg s (slot := .sample) rfl, perform_readReg s (slot := .code) rfl,
    perform_readReg s (slot := .marker) rfl, perform_readReg s (slot := .offset) rfl,
    perform_readReg s (slot := .ilen) rfl, perform_readReg s (slot := .src) rfl,
    perform_readReg s (slot := .dst) rfl, perform_readReg s (slot := .plen) rfl⟩

/-- Settles O15: from 10 on, an index is reserved below 16 and missing at 16 and above. -/
theorem reservedAndMissingSlots : Obligations.ReservedAndMissingSlots := by
  intro s i v
  constructor
  · intro hlow hhigh
    have hslot : slotOf i = some .reserved := by rw [slotOf_of_ge hlow, if_pos (by omega)]
    exact ⟨perform_writeReg s v hslot (by decide), perform_readReg s hslot⟩
  · intro hi
    have hslot : slotOf i = none := by rw [slotOf_of_ge (by omega), if_neg (by omega)]
    exact ⟨perform_writeReg_missing s v hslot, perform_readReg_missing s hslot⟩

/-- Settles O17: the three cases of a host byte read. -/
theorem hostReadByteReturns : Obligations.HostReadByteReturns := by
  intro s sp a
  exact ⟨fun v => hostReadByte_eq sp a v s, perform_readByte_unwritten s, perform_readByte_outside s⟩

end Sys2Proof.Machine

/-! # What a command reads and writes (obligations O36 to O39) -/

namespace Sys2Proof.Machine

open Sys2Proof.Claims

/-! ## What a command that answers has changed

The next states of the commands with several branches, without their guards. -/

section
variable {s t : State}

theorem exec_encm_next (h : exec .encm s = .next t) :
    t = s.setErr ErrKind.bounds.errCode ∨
    ∃ x, t = State.setErr 0#4
      { s with obuf := s.obuf.write s.dst.toNat (ulaw s.cfg x), code := ulaw s.cfg x,
               src := s.src + 2#32, dst := s.dst + 1#32 } := by
  obtain ⟨-, he⟩ | ⟨-, a, -, he⟩ | ⟨-, x, -, he⟩ := exec_encm_cases s <;> rw [he] at h <;> cases h
  · exact .inl rfl
  · exact .inr ⟨x, rfl⟩

theorem exec_loc_next (h : exec .loc s = .next t) :
    t = s.setErr ErrKind.bounds.errCode ∨
    ∃ f o, t = State.setErr 0#4 (State.setFound f { s with offset := o }) := by
  obtain ⟨-, he⟩ | ⟨-, a, -, he⟩ | ⟨-, p, -, he⟩ | ⟨-, -, he⟩ := exec_loc_cases s <;> rw [he] at h <;> cases h
  · exact .inl rfl
  · exact .inr ⟨true, BitVec.ofNat 32 p, rfl⟩
  · exact .inr ⟨false, 0#32, rfl⟩

theorem exec_hdr_next (h : exec .hdr s = .next t) :
    t = s.setErr ErrKind.len.errCode ∨
    t = State.setErr 0#4 { s with obuf := s.obuf.writeBytes 0 (header s.plen.toNat) } := by
  obtain ⟨-, he⟩ | ⟨-, he⟩ := exec_hdr_cases s <;> rw [he] at h <;> cases h
  · exact .inl rfl
  · exact .inr rfl

end

/-- The flag speaks of `STATUS` only. -/
theorem found_of_status {s t : State} (h : t.status = s.status) : t.found = s.found := congrArg foundOf h

/-- Settles O36: every branch but `LOC`'s two successes and `RST` writes `ERR` only in `STATUS`. -/
theorem foundChangesOnlyByLocAndRst : Obligations.FoundChangesOnlyByLocAndRst := by
  intro s t i h hrst hloc
  cases i with
  | nop => cases h; simp
  | enc => cases h; exact (setErr_found ..).trans (found_of_status rfl)
  | enci imm => cases h; exact (setErr_found ..).trans (found_of_status rfl)
  | encm =>
    obtain rfl | ⟨x, rfl⟩ := exec_encm_next h
    · simp
    · exact (setErr_found ..).trans (found_of_status rfl)
  | loc =>
    obtain rfl | ⟨f, o, rfl⟩ := exec_loc_next h
    · simp
    · exact absurd (setErr_err ..) (hloc rfl)
  | hdr =>
    obtain rfl | rfl := exec_hdr_next h
    · simp
    · exact (setErr_found ..).trans (found_of_status rfl)
  | rst => exact absurd rfl hrst

/-- Settles O38: the columns of 10_state R33, read off each command's next states. -/
theorem commandsWriteOnlyTheirColumns : Obligations.CommandsWriteOnlyTheirColumns := by
  intro i s t h
  cases i with
  | nop => cases h; simp
  | enc => cases h; simp
  | enci imm => cases h; simp
  | encm => obtain rfl | ⟨x, rfl⟩ := exec_encm_next h <;> simp
  | loc => obtain rfl | ⟨f, o, rfl⟩ := exec_loc_next h <;> simp
  | hdr => obtain rfl | rfl := exec_hdr_next h <;> simp
  | rst => cases h; simp

/-! ## Two runs of one command -/

/-- Two states equal but for `STATUS`, and with the same `ERR`. -/
def AgreeButStatus (t t' : State) : Prop := t' = { t with status := t'.status } ∧ t'.err = t.err

/-- The write of `ERR` that ends a command makes two states equal but for `STATUS` agree in `ERR` as well. -/
theorem agreeButStatus_setErr {u u' : State} (h : u' = { u with status := u'.status }) (e : BitVec 4) :
    AgreeButStatus (u.setErr e) (u'.setErr e) := by
  rw [h]
  exact ⟨rfl, by simp⟩

/-- Settles O37: no guard and no operand looks at `STATUS`, so both runs take the same branch, and what that branch
stores is the same but for the rest of the status word. -/
theorem statusIsNeverRead : Obligations.StatusIsNeverRead := by
  intro i s st
  cases i with
  | nop => exact agreeButStatus_setErr rfl _
  | enc => exact agreeButStatus_setErr rfl _
  | enci imm => exact agreeButStatus_setErr rfl _
  | encm =>
    obtain ⟨h, he⟩ | ⟨h, a, ha, he⟩ | ⟨h, x, hx, he⟩ := exec_encm_cases s <;> rw [he]
    · rw [exec_encm_err { s with status := st } h]
      exact agreeButStatus_setErr rfl _
    · rw [exec_encm_fault { s with status := st } h a ha]
      rfl
    · rw [exec_encm_ok { s with status := st } h x hx]
      exact agreeButStatus_setErr rfl _
  | loc =>
    obtain ⟨h, he⟩ | ⟨h, a, ha, he⟩ | ⟨h, p, hp, he⟩ | ⟨h, hp, he⟩ := exec_loc_cases s <;> rw [he]
    · rw [exec_loc_err { s with status := st } h]
      exact agreeButStatus_setErr rfl _
    · rw [exec_loc_fault { s with status := st } h a ha]
      rfl
    · rw [exec_loc_found { s with status := st } h p hp]
      exact agreeButStatus_setErr rfl _
    · rw [exec_loc_not_found { s with status := st } h hp]
      exact agreeButStatus_setErr rfl _
  | hdr =>
    obtain ⟨h, he⟩ | ⟨h, he⟩ := exec_hdr_cases s <;> rw [he]
    · rw [exec_hdr_err { s with status := st } h]
      exact agreeButStatus_setErr rfl _
    · rw [exec_hdr_ok { s with status := st } h]
      -- a variable for the bytes, so that `rfl` does not compute them
      generalize header s.plen.toNat = bytes
      exact agreeButStatus_setErr rfl _
  | rst => exact ⟨rfl, rfl⟩

/-- Two states equal but for `OBUF`, which started as `m` and `m'`: each byte is kept in both or the same in both. -/
def AgreeButObuf (m m' : Memory) (t t' : State) : Prop :=
  t' = { t with obuf := t'.obuf } ∧
    ∀ a, (t.obuf.read a = m.read a ∧ t'.obuf.read a = m'.read a) ∨ t'.obuf.read a = t.obuf.read a

/-- A command that stores nothing keeps every byte. -/
theorem agreeButObuf_kept (u : State) (m' : Memory) : AgreeButObuf u.obuf m' u { u with obuf := m' } :=
  ⟨rfl, fun _ => .inl ⟨rfl, rfl⟩⟩

/-- A run of bytes stored in two buffers: inside the run both read the same, outside it each is as before. -/
theorem Memory.read_writeBytes_two (m m' : Memory) (p : Nat) (bs : List Byte) (a : Nat) :
    ((m.writeBytes p bs).read a = m.read a ∧ (m'.writeBytes p bs).read a = m'.read a) ∨
      (m'.writeBytes p bs).read a = (m.writeBytes p bs).read a := by
  simp only [Memory.read_writeBytes]
  split
  · cases bs[a - p]? <;> simp
  · exact .inl ⟨rfl, rfl⟩

theorem agreeButObuf_stored (u : State) (m m' : Memory) (p : Nat) (bs : List Byte) :
    AgreeButObuf m m' { u with obuf := m.writeBytes p bs } { u with obuf := m'.writeBytes p bs } :=
  ⟨rfl, Memory.read_writeBytes_two m m' p bs⟩

/-- Writes of `STATUS` are the same in both and leave `OBUF`. -/
theorem AgreeButObuf.setErr {m m' : Memory} {t t' : State} (h : AgreeButObuf m m' t t') (e : BitVec 4) :
    AgreeButObuf m m' (t.setErr e) (t'.setErr e) :=
  ⟨congrArg (State.setErr e) h.1, h.2⟩

theorem AgreeButObuf.setFound {m m' : Memory} {t t' : State} (h : AgreeButObuf m m' t t') (f : Bool) :
    AgreeButObuf m m' (t.setFound f) (t'.setFound f) :=
  ⟨congrArg (State.setFound f) h.1, h.2⟩

/-- Settles O39: no guard and no operand looks at `OBUF`, so both runs take the same branch and store the same run of
bytes at the same place (`ENCM` one byte, `HDR` the header), or none. -/
theorem obufIsNeverRead : Obligations.ObufIsNeverRead := by
  intro i s m
  cases i with
  | nop => exact (agreeButObuf_kept s m).setErr _
  | enc => exact (agreeButObuf_kept { s with code := _ } m).setErr _
  | enci imm => exact (agreeButObuf_kept { s with code := _ } m).setErr _
  | encm =>
    obtain ⟨h, he⟩ | ⟨h, a, ha, he⟩ | ⟨h, x, hx, he⟩ := exec_encm_cases s <;> rw [he]
    · rw [exec_encm_err { s with obuf := m } h]
      exact (agreeButObuf_kept s m).setErr _
    · rw [exec_encm_fault { s with obuf := m } h a ha]
      rfl
    · rw [exec_encm_ok { s with obuf := m } h x hx]
      exact (agreeButObuf_stored { s with code := _, src := _, dst := _ } s.obuf m s.dst.toNat [ulaw s.cfg x]).setErr _
  | loc =>
    obtain ⟨h, he⟩ | ⟨h, a, ha, he⟩ | ⟨h, p, hp, he⟩ | ⟨h, hp, he⟩ := exec_loc_cases s <;> rw [he]
    · rw [exec_loc_err { s with obuf := m } h]
      exact (agreeButObuf_kept s m).setErr _
    · rw [exec_loc_fault { s with obuf := m } h a ha]
      rfl
    · rw [exec_loc_found { s with obuf := m } h p hp]
      exact ((agreeButObuf_kept { s with offset := _ } m).setFound _).setErr _
    · rw [exec_loc_not_found { s with obuf := m } h hp]
      exact ((agreeButObuf_kept { s with offset := _ } m).setFound _).setErr _
  | hdr =>
    obtain ⟨h, he⟩ | ⟨h, he⟩ := exec_hdr_cases s <;> rw [he]
    · rw [exec_hdr_err { s with obuf := m } h]
      exact (agreeButObuf_kept s m).setErr _
    · rw [exec_hdr_ok { s with obuf := m } h]
      exact (agreeButObuf_stored s s.obuf m 0 (header s.plen.toNat)).setErr _
  | rst => exact agreeButObuf_kept (resetRegisters s) m

end Sys2Proof.Machine

/-! # The state after reset and the compression table (obligations O31 and O43) -/

namespace Sys2Proof.Machine

/-- Settles O31: the parameters of reset are legal, its buffers are empty and its registers hold R31's values. -/
theorem resetMeetsTheInvariant : Obligations.ResetMeetsTheInvariant where
  cfg_legal := by decide
  ibuf_wf := rfl
  obuf_wf := rfl
  ibuf_below := rfl
  obuf_below := rfl
  status_reserved := by decide
  err_code := by decide
  offset_found := by decide
  offset_not_found := fun _ => rfl

/-- Runs of equal entries one behind the other: the first run that reaches the index decides. -/
theorem getElem?_replicate_append {α : Type} (n i : Nat) (x : α) (xs : List α) :
    (List.replicate n x ++ xs)[i]? = if i < n then some x else xs[i - n]? := by
  rw [List.getElem?_append, List.length_replicate]
  split
  · simp [*]
  · rfl

theorem ctabR27_getElem? (i : Nat) : ctabR27[i]? = ctabEntries[i]? := by
  simp [ctabR27]

/-- The run of R27 that holds the entries with leading bit `e` starts at `2^e` and is `2^e` long. -/
theorem ctabEntries_of_leadingBit {i e : Nat} (he : e < 8) (hlow : 2 ^ e ≤ i) (hhigh : i < 2 ^ (e + 1)) :
    ctabEntries[i]? = some (BitVec.ofNat 3 e) := by
  simp only [ctabEntries, ctabRuns, List.flatMap_cons, getElem?_replicate_append]
  interval_cases e <;> simp (disch := omega) only [if_pos, if_neg] <;> rfl

/-- Settles O43: eight runs, one per position of the leading 1 bit. -/
theorem tableIsTheLeadingBit : Obligations.TableIsTheLeadingBit := by
  refine ⟨rfl, fun i e _ hi hlow hhigh => ?_⟩
  have he : e < 8 := by
    have : 2 ^ e < 2 ^ 8 := by omega
    exact (Nat.pow_lt_pow_iff_right (by decide)).mp this
  rw [ctabR27_getElem?, ctabEntries_of_leadingBit he hlow hhigh]

end Sys2Proof.Machine

/-! # Buffers, the bytes a command reads, and the order of events (obligations O10, O30, O40, O42, O51 and O52) -/

namespace Sys2Proof.Machine

open Sys2Proof.Claims

/-! ## `MemRead` and `MemWrite` (20_memory R51) -/

theorem memRead_memWrite_same (m : Memory) (a n v : Nat) : memRead (memWrite m a n v) a n = .ok (v % 256 ^ n) := by
  have hrun : (memWrite m a n v).readBytes a n = .ok (leBytes n v) := by
    simpa only [memWrite, leBytes_length] using Memory.readBytes_writeBytes m a (leBytes n v)
  simp only [memRead, hrun, leNat_leBytes]

theorem read_memWrite_outside (m : Memory) {a n b : Nat} (v : Nat) (h : b < a ∨ a + n ≤ b) :
    (memWrite m a n v).read b = m.read b := by
  rw [memWrite, Memory.read_writeBytes]
  split
  · have hlen : (leBytes n v).length ≤ b - a := by rw [leBytes_length]; omega
    rw [List.getElem?_eq_none hlen, Option.orElse_none]
  · rfl

/-- Settles O51. -/
theorem memReadAfterMemWrite : Obligations.MemReadAfterMemWrite := by
  intro m a n v
  exact ⟨memRead_memWrite_same m a n v, fun _ => read_memWrite_outside m v⟩

/-- Settles O52: `MemWrite` is a run of byte writes, and each of them keeps both. -/
theorem storesKeepTheCanonicalForm : Obligations.StoresKeepTheCanonicalForm := by
  intro m a n v size hwf hbelow hfits
  have hlen : a + (leBytes n v).length ≤ size := by rw [leBytes_length]; exact hfits
  exact ⟨Memory.wf_writeBytes m a _ hwf, Memory.below_writeBytes m _ hlen hbelow⟩

/-! ## How a command stops (20_memory R46) -/

/-- A command that does not answer is `ENCM` or `LOC` on a byte of `IBUF` below `ILEN` that has no value. -/
theorem exec_next_or_fault (i : Instr) (s : State) :
    Continues (exec i s) ∨
    ∃ a, exec i s = .fault (.unwrittenByte .ibuf a) ∧ a < s.ilen.toNat ∧ s.ibuf.read a = none ∧
      (i = .encm ∨ i = .loc) := by
  cases i with
  | nop | enc | enci | rst => exact .inl ⟨_, rfl⟩
  | encm =>
    obtain ⟨-, he⟩ | ⟨hbounds, a, ha, he⟩ | ⟨-, x, -, he⟩ := exec_encm_cases s
    · exact .inl ⟨_, he⟩
    · obtain ⟨-, hsrc, -⟩ := (encmOutOfBounds_false_iff s).mp hbounds
      obtain ⟨rfl, hnone⟩ | ⟨rfl, -, hnone⟩ := (bufferOperand_error s a).mp ha
      · exact .inr ⟨_, he, by omega, hnone, .inl rfl⟩
      · exact .inr ⟨_, he, by omega, hnone, .inl rfl⟩
    · exact .inl ⟨_, he⟩
  | loc =>
    obtain ⟨-, he⟩ | ⟨-, a, ha, he⟩ | ⟨-, p, -, he⟩ | ⟨-, -, he⟩ := exec_loc_cases s
    · exact .inl ⟨_, he⟩
    · obtain ⟨hlt, hnone⟩ := search_error _ _ _ _ ha
      exact .inr ⟨a, he, hlt, hnone, .inr rfl⟩
    · exact .inl ⟨_, he⟩
    · exact .inl ⟨_, he⟩
  | hdr => obtain ⟨-, he⟩ | ⟨-, he⟩ := exec_hdr_cases s <;> exact .inl ⟨_, he⟩

/-- Settles O42. -/
theorem commandsStopOnlyOnUnwrittenBytes : Obligations.CommandsStopOnlyOnUnwrittenBytes := by
  intro i s
  obtain ⟨t, he⟩ | ⟨a, he, hlt, hnone, hi⟩ := exec_next_or_fault i s <;> rw [he]
  · exact ⟨nofun, nofun⟩
  · refine ⟨nofun, fun f hf => ?_⟩
    cases hf
    exact ⟨a, rfl, hlt, hnone, hi⟩

/-! ## The search of `LOC` on the first byte without a value (40_chunk_locator R80) -/

section
variable {mem : Memory} {w : Word} {p q : Nat}

theorem matchAt_markerBytes_iff : matchAt mem (markerBytes w) q = .ok true ↔ MarkerAt mem w q := by
  rw [matchAt_true_iff, markerBytes_length, MarkerAt]
  exact forall₂_congr fun k hk => by rw [markerBytes_getElem w k hk]

theorem matchAt_markerBytes_unwritten (hnone : mem.read p = none) :
    matchAt mem (markerBytes w) p = .error p := by
  simp [markerBytes, matchAt, hnone]

/-- A position whose four bytes hold one without a value does not match. -/
theorem not_markerAt_of_unwritten (hqp : q ≤ p) (hpq : p < q + 4) (hnone : mem.read p = none) :
    ¬ MarkerAt mem w q := by
  intro h
  have hp := h (p - q) (by omega)
  rw [Nat.add_sub_cancel' hqp, hnone] at hp
  cases hp

/-- Where every byte below `p` has a value, a comparison from `q ≤ p` that stops does so on `p`: it has matched, so
read, every byte before the one it stops on. -/
theorem matchAt_error_eq_first_unwritten {a : Nat} (hbelow : mem.hasBytes 0 p) (hnone : mem.read p = none)
    (hqp : q ≤ p) (h : matchAt mem (markerBytes w) q = .error a) : a = p := by
  obtain ⟨-, ha, hread, hmatched⟩ := matchAt_error mem _ q a h
  rw [markerBytes_length] at ha
  obtain hlt | heq | hgt := Nat.lt_trichotomy a p
  · obtain ⟨v, hv⟩ := hbelow a hlt
    rw [Nat.zero_add, hread] at hv
    cases hv
  · exact heq
  · have hp := hmatched (p - q) (by omega)
    rw [Nat.add_sub_cancel' hqp, hnone, markerBytes_getElem w _ (by omega)] at hp
    cases hp

/-- The search stops on the first byte without a value, if one of its positions is that byte and the marker does not
stand below it. -/
theorem search_stops_on_first_unwritten {len : Nat} (hlen : p + 4 ≤ len) (hbelow : mem.hasBytes 0 p)
    (hnone : mem.read p = none) (hno : ∀ q, q + 4 ≤ p → ¬ MarkerAt mem w q) :
    search mem (markerBytes w) len = .error p := by
  have hstop : matchAt mem (markerBytes w) p ≠ .ok false := by
    rw [matchAt_markerBytes_unwritten hnone]; nofun
  rw [search]
  obtain ⟨hall, -⟩ | ⟨q, -, -, hbefore, hq⟩ := searchFrom_cases mem (markerBytes w) (len - 3) 0
  · exact absurd (hall p (Nat.zero_le p) (by omega)) hstop
  · have hqp : q ≤ p := Nat.not_lt.mp fun hpq => hstop (hbefore p (Nat.zero_le p) hpq)
    obtain ⟨hmatch, -⟩ | ⟨a, herr, hsearch⟩ := hq
    · have hat : MarkerAt mem w q := matchAt_markerBytes_iff.mp hmatch
      by_cases hfit : q + 4 ≤ p
      · exact absurd hat (hno q hfit)
      · exact absurd hat (not_markerAt_of_unwritten hqp (by omega) hnone)
    · rw [hsearch, matchAt_error_eq_first_unwritten hbelow hnone hqp herr]

end

/-- Settles O30: `ENCM` on the first of its two bytes without a value, `LOC` on the first of the buffer. -/
theorem unwrittenOperandByteFaults : Obligations.UnwrittenOperandByteFaults := by
  intro s
  refine ⟨fun hilen hsrc hdst => ?_, fun p hilen hp hbelow hnone hno => ?_⟩
  · have hbounds : encmOutOfBounds s = false := (encmOutOfBounds_false_iff s).mpr ⟨hilen, hsrc, hdst⟩
    exact ⟨fun hlow => exec_encm_fault s hbounds _ ((bufferOperand_error s _).mpr (.inl ⟨rfl, hlow⟩)),
      fun lo hlow hhigh =>
        exec_encm_fault s hbounds _ ((bufferOperand_error s _).mpr (.inr ⟨rfl, ⟨lo, hlow⟩, hhigh⟩))⟩
  · exact exec_loc_fault s ((ilenTooLong_false_iff s).mpr hilen) p
      (search_stops_on_first_unwritten hp hbelow hnone hno)

/-! ## What a command does not look at

The host's events still to come, and `IBUF` at or beyond `ILEN`: a change of these before the command is the same change
after it. -/

/-- The outcome with its next state, if it is one, changed by `f`. -/
def mapNext (f : State → State) (o : Host.Outcome State Fault Refusal) : Host.Outcome State Fault Refusal :=
  andThen o (fun t => .next (f t))

@[simp] theorem mapNext_next (f : State → State) (t : State) : mapNext f (.next t) = .next (f t) := rfl
@[simp] theorem mapNext_fault (f : State → State) (r : Fault) : mapNext f (.fault r) = .fault r := rfl
@[simp] theorem mapNext_refused (f : State → State) (r : Refusal) : mapNext f (.refused r) = .refused r := rfl

theorem andThen_mapNext (f : State → State) (o : Host.Outcome State Fault Refusal)
    (k : State → Host.Outcome State Fault Refusal) : andThen (mapNext f o) k = andThen o (fun t => k (f t)) := by
  cases o <;> rfl

theorem agree_mapNext (f : State → State) (o : Host.Outcome State Fault Refusal) :
    Agree (fun t t' => t' = f t) o (mapNext f o) := by
  cases o <;> rfl

/-- The state with its input buffer changed by `g` and its list of events still to come by `q`. -/
def State.mapInput (g : Memory → Memory) (q : List HostEvent → List HostEvent) (s : State) : State :=
  { s with ibuf := g s.ibuf, pending := q s.pending }

/-- The sample of `ENCM` is read from `SRC` and `SRC + 1` only. -/
theorem bufferOperand_congr {s s' : State} (hsrc : s'.src = s.src)
    (h0 : s'.ibuf.read s.src.toNat = s.ibuf.read s.src.toNat)
    (h1 : s'.ibuf.read (s.src.toNat + 1) = s.ibuf.read (s.src.toNat + 1)) : bufferOperand s' = bufferOperand s := by
  simp only [bufferOperand, memRead, Memory.readBytes, hsrc, h0, h1]

/-- The search of a length reads the bytes below it only. -/
theorem search_congr {mem mem' : Memory} (w : Word) {len : Nat} (h : ∀ a, a < len → mem'.read a = mem.read a) :
    search mem' (markerBytes w) len = search mem (markerBytes w) len := by
  unfold search
  obtain hshort | hlong := Nat.lt_or_ge len 4
  · rw [show len - 3 = 0 by omega]; rfl
  · exact searchFrom_congr mem mem' _ _ _ fun a _ ha => h a (by rw [markerBytes_length] at ha; omega)

theorem exec_mapInput (i : Instr) (s : State) (g : Memory → Memory) (q : List HostEvent → List HostEvent)
    (h : ∀ a, a < s.ilen.toNat → (g s.ibuf).read a = s.ibuf.read a) :
    exec i (s.mapInput g q) = mapNext (State.mapInput g q) (exec i s) := by
  cases i with
  | nop | enc | enci | rst => rfl
  | encm =>
    cases hbounds : encmOutOfBounds s with
    | true =>
      rw [exec_encm_err s hbounds, exec_encm_err (s.mapInput g q) hbounds]
      rfl
    | false =>
      obtain ⟨-, hsrc, -⟩ := (encmOutOfBounds_false_iff s).mp hbounds
      have hoperand : bufferOperand (s.mapInput g q) = bufferOperand s :=
        bufferOperand_congr rfl (h _ (by omega)) (h _ (by omega))
      cases hx : bufferOperand s with
      | error a =>
        rw [exec_encm_fault s hbounds a hx, exec_encm_fault (s.mapInput g q) hbounds a (hoperand.trans hx)]
        rfl
      | ok x =>
        rw [exec_encm_ok s hbounds x hx, exec_encm_ok (s.mapInput g q) hbounds x (hoperand.trans hx)]
        rfl
  | loc =>
    have hsearch : search (s.mapInput g q).ibuf (markerBytes s.marker) s.ilen.toNat =
      search s.ibuf (markerBytes s.marker) s.ilen.toNat := search_congr s.marker h
    obtain ⟨hilen, he⟩ | ⟨hilen, a, ha, he⟩ | ⟨hilen, p, hp, he⟩ | ⟨hilen, hp, he⟩ := exec_loc_cases s <;> rw [he]
    · rw [exec_loc_err (s.mapInput g q) hilen]
      rfl
    · rw [exec_loc_fault (s.mapInput g q) hilen a (hsearch.trans ha)]
      rfl
    · rw [exec_loc_found (s.mapInput g q) hilen p (hsearch.trans hp)]
      rfl
    · rw [exec_loc_not_found (s.mapInput g q) hilen (hsearch.trans hp)]
      rfl
  | hdr =>
    obtain ⟨hplen, he⟩ | ⟨hplen, he⟩ := exec_hdr_cases s <;> rw [he]
    · rw [exec_hdr_err (s.mapInput g q) hplen]
      rfl
    · rw [exec_hdr_ok (s.mapInput g q) hplen]
      -- a variable for the bytes, so that `rfl` does not compute them
      change Host.Outcome.next (State.setErr 0#4
        { s.mapInput g q with obuf := s.obuf.writeBytes 0 (header s.plen.toNat) }) = _
      generalize header s.plen.toNat = bytes
      rfl

/-- Settles O40: the change of `IBUF` passes through the command. -/
theorem ibufBeyondIlenIsNeverRead : Obligations.IbufBeyondIlenIsNeverRead := by
  intro i s m h
  have hexec : exec i { s with ibuf := m } = mapNext (fun t => { t with ibuf := m }) (exec i s) :=
    exec_mapInput i s (fun _ => m) id h
  rw [hexec]
  exact agree_mapNext _ _

/-! ## Steps and host events (20_memory R47) -/

/-- The state with these events still to come. -/
def State.withPending (es : List HostEvent) (s : State) : State := { s with pending := es }

theorem exec_withPending (i : Instr) (s : State) (es : List HostEvent) :
    exec i (s.withPending es) = mapNext (State.withPending es) (exec i s) :=
  exec_mapInput i s id (fun _ => es) (fun _ _ => rfl)

theorem runCommand_withPending (w : Word) (s : State) (es : List HostEvent) :
    runCommand w (s.withPending es) = mapNext (State.withPending es) (runCommand w s) := by
  unfold runCommand
  cases decode w with
  | ok i => exact exec_withPending i s es
  | error _ => rfl

/-- An event does not look at the events behind it, and leaves them. -/
theorem perform_withPending (e : HostEvent) (s : State) (es : List HostEvent) :
    perform e (s.withPending es) = mapNext (State.withPending es) (perform e s) := by
  cases e with
  | writeReg i v =>
    simp only [perform, hostWriteReg]
    cases slotOf i with
    | none => rfl
    | some slot =>
      cases slot with
      | cmd => exact runCommand_withPending v s es
      | _ => rfl
  | readReg i =>
    cases hslot : slotOf i with
    | none => simp only [perform_readReg_missing _ hslot, mapNext_refused]
    | some slot =>
      simp only [perform_readReg _ hslot, mapNext_next]
      cases slot <;> rfl
  | writeByte sp a v =>
    by_cases ha : a < sp.size s.cfg
    · rw [perform_writeByte s v ha, perform_writeByte (s.withPending es) v ha]
      cases sp <;> rfl
    · rw [perform_writeByte_outside s v (Nat.not_lt.mp ha),
        perform_writeByte_outside (s.withPending es) v (Nat.not_lt.mp ha), mapNext_refused]
  | readByte sp a =>
    have hbuf : (s.withPending es).buf sp = s.buf sp := by cases sp <;> rfl
    by_cases ha : a < sp.size s.cfg
    · cases hv : (s.buf sp).read a with
      | none =>
        rw [perform_readByte_unwritten s ha hv, perform_readByte_unwritten (s.withPending es) ha (by rw [hbuf, hv]),
          mapNext_fault]
      | some v =>
        simp only [perform]
        rw [hostReadByte_eq sp a v s ha hv, hostReadByte_eq sp a v (s.withPending es) ha (by rw [hbuf, hv])]
        rfl
    · rw [perform_readByte_outside s (Nat.not_lt.mp ha),
        perform_readByte_outside (s.withPending es) (Nat.not_lt.mp ha), mapNext_refused]
  | hardwareReset => rfl

theorem step_withPending_cons (e : HostEvent) (es : List HostEvent) (s : State) :
    step (s.withPending (e :: es)) = mapNext (State.withPending es) (perform e s) :=
  perform_withPending e s es

/-- The host's `run` on this machine, at the model's own types. -/
def runSteps (k : Nat) (s : State) : Host.Outcome State Fault Refusal := core.run k s

theorem runSteps_succ (k : Nat) (s : State) : runSteps (k + 1) s = andThen (step s) (runSteps k) := by
  change Host.Core.run core (k + 1) s = andThen (core.step s) (runSteps k)
  simp only [Host.Core.run]
  generalize core.step s = o
  cases o <;> rfl

/-- One step for each event performs them in order, whatever was pending in the state they are placed in. -/
theorem runSteps_withPending (es : List HostEvent) (s : State) :
    runSteps es.length (s.withPending es) = performAll es (s.withPending []) := by
  induction es generalizing s with
  | nil => rfl
  | cons e es ih =>
    calc runSteps (es.length + 1) (s.withPending (e :: es))
        = andThen (perform e s) (fun t => runSteps es.length (t.withPending es)) := by
          rw [runSteps_succ, step_withPending_cons, andThen_mapNext]
      _ = andThen (perform e s) (fun t => performAll es (t.withPending [])) := by simp only [ih]
      _ = performAll (e :: es) (s.withPending []) := by
          rw [performAll, perform_withPending, andThen_mapNext]

/-- Settles O10. -/
theorem stepsPerformEventsInOrder : Obligations.StepsPerformEventsInOrder := runSteps_withPending

end Sys2Proof.Machine

/-! # The encoding in both directions (obligations O1 to O6, O57 and O58)

Two characterizations carry the family: `decode_eq_ok_iff_row` reads the decoder off the rows of the map (30_encoding
R63), and `decode_eq_ok_iff` says that the encoder is its inverse. -/

namespace Sys2Proof

open Sys2Proof.Claims

/-! ## The rows of the opcode map (30_encoding R63) -/

theorem OpRow.covers_iff (r : OpRow) (w : Word) : r.covers w = true ↔ w &&& r.mask = r.pattern := by
  simp [OpRow.covers]

/-- The row of `ENCI`, the only one with bits its mask leaves free. -/
def enciRow : OpRow := ⟨.enci, 0x02000000#32, 0xFFFF0000#32⟩

theorem enciRow_covers_iff (w : Word) : enciRow.covers w = true ↔ w.toNat / 65536 = 0x0200 :=
  (OpRow.covers_iff enciRow w).trans (enciRow_iff w)

/-- Two different rows disagree in a bit that both masks keep. -/
theorem eq_of_patterns_agree :
    ∀ r ∈ opcodeMap, ∀ q ∈ opcodeMap, r.pattern &&& q.mask = q.pattern &&& r.mask → r = q := by decide

/-- The rows are disjoint (R63). -/
theorem eq_of_covers {r q : OpRow} {w : Word} (hr : r ∈ opcodeMap) (hq : q ∈ opcodeMap) (hrw : r.covers w = true)
    (hqw : q.covers w = true) : r = q := by
  rw [OpRow.covers_iff] at hrw hqw
  refine eq_of_patterns_agree r hr q hq ?_
  rw [← hrw, ← hqw, BitVec.and_assoc, BitVec.and_assoc, BitVec.and_comm r.mask]

/-- The first row that covers a word is the only one, so the order of the map does not matter. -/
theorem decode_eq_ok_iff_row (w : Word) (i : Instr) :
    decode w = .ok i ↔ ∃ r ∈ opcodeMap, r.covers w = true ∧ i = rowInstr r.op w := by
  unfold decode
  cases hfind : opcodeMap.find? (fun r => r.covers w) with
  | none =>
    have huncovered : ∀ r ∈ opcodeMap, ¬ r.covers w = true := List.find?_eq_none.mp hfind
    constructor
    · intro h
      cases h
    · rintro ⟨r, hr, hcovers, -⟩
      exact absurd hcovers (huncovered r hr)
  | some q =>
    have hq : q ∈ opcodeMap := List.mem_of_find?_eq_some hfind
    have hcovers : q.covers w = true := List.find?_some (p := (OpRow.covers · w)) hfind
    constructor
    · intro h
      cases h
      exact ⟨q, hq, hcovers, rfl⟩
    · rintro ⟨r, hr, hrw, rfl⟩
      rw [eq_of_covers hr hq hrw hcovers]

theorem countP_covers_le_one (w : Word) : opcodeMap.countP (fun r => r.covers w) ≤ 1 := by
  by_cases h : ∃ r ∈ opcodeMap, r.covers w = true
  · obtain ⟨r, hr, hrw⟩ := h
    have honly : ∀ q ∈ opcodeMap, q.covers w = true → (q == r) = true := fun q hq hqw =>
      beq_iff_eq.mpr (eq_of_covers hq hr hqw hrw)
    calc opcodeMap.countP (fun q => q.covers w) ≤ opcodeMap.count r := List.countP_mono_left honly
      _ ≤ 1 := List.nodup_iff_count_le_one.mp (by decide) r
  · have hzero : opcodeMap.countP (fun r => r.covers w) = 0 :=
      List.countP_eq_zero.mpr fun r hr hrw => h ⟨r, hr, hrw⟩
    omega

/-- The rows written out in the statements are those of the model. -/
theorem mapRows_eq : mapRows = opcodeMap.map (fun r => (r.pattern, r.mask, rowInstr r.op)) := by
  have himm : (fun w : Word => Instr.enci (w.setWidth 16)) = rowInstr .enci :=
    funext fun w => congrArg Instr.enci (BitVec.setWidth_eq_extractLsb' (by decide))
  rw [mapRows, himm]
  rfl

/-- Settles O2: the rows are disjoint, so the row found first is the one that covers the word. -/
theorem legalExactlyByOneRow : Obligations.LegalExactlyByOneRow := by
  constructor
  · intro w i
    simp only [decode_eq_ok_iff_row, mapRows_eq, List.mem_map, exists_exists_and_eq_and, OpRow.covers_iff]
  · intro w
    rw [mapRows_eq, List.countP_map]
    exact countP_covers_le_one w

/-! ## Encoder and decoder -/

theorem decode_of_enciRow {w : Word} (h : w.toNat / 65536 = 0x0200) :
    decode w = .ok (.enci (w.extractLsb' 0 16)) :=
  (decode_eq_ok_iff_row w _).mpr ⟨enciRow, by decide, (enciRow_covers_iff w).mpr h, rfl⟩

theorem decode_encode (i : Instr) : decode (encode i) = .ok i := by
  cases i with
  | enci imm =>
    have hword : (encode (.enci imm)).toNat = 0x02000000 + imm.toNat := Laws.EncodedWord.enci imm
    have himm : (encode (.enci imm)).extractLsb' 0 16 = imm := by
      apply BitVec.eq_of_toNat_eq
      simp only [BitVec.extractLsb'_toNat, hword]
      omega
    rw [decode_of_enciRow (by omega), himm]
  | _ => decide

/-- Settles O3. -/
theorem decodeInvertsEncode : Obligations.DecodeInvertsEncode := decode_encode

/-- A row other than that of `ENCI` covers one word, the word of its command. -/
theorem eq_enciRow_or_full_mask :
    ∀ r ∈ opcodeMap,
      r = enciRow ∨ r.mask = 0xFFFFFFFF#32 ∧ encode (rowInstr r.op r.pattern) = r.pattern := by decide

theorem encode_rowInstr {r : OpRow} {w : Word} (hr : r ∈ opcodeMap) (hw : r.covers w = true) :
    encode (rowInstr r.op w) = w := by
  rcases eq_enciRow_or_full_mask r hr with rfl | ⟨hmask, hword⟩
  · have hhigh : w.toNat / 65536 = 0x0200 := (enciRow_covers_iff w).mp hw
    apply BitVec.eq_of_toNat_eq
    calc (encode (.enci (w.extractLsb' 0 16))).toNat = 0x02000000 + (w.extractLsb' 0 16).toNat :=
          Laws.EncodedWord.enci _
      _ = w.toNat := by rw [BitVec.extractLsb'_toNat]; omega
  · have hfixed : w = r.pattern := by rw [← (r.covers_iff w).mp hw, hmask, and_allOnes32]
    rw [hfixed, hword]

/-- The encoder is the decoder's inverse on the legal words. -/
theorem decode_eq_ok_iff (w : Word) (i : Instr) : decode w = .ok i ↔ encode i = w := by
  constructor
  · intro h
    obtain ⟨r, hr, hcovers, rfl⟩ := (decode_eq_ok_iff_row w i).mp h
    exact encode_rowInstr hr hcovers
  · rintro rfl
    exact decode_encode i

/-- Settles O4: a legal word is covered by a row, and encoding the row's command gives the word. -/
theorem encodeInvertsDecode : Obligations.EncodeInvertsDecode := fun w i => (decode_eq_ok_iff w i).mp

/-- Settles O5: the immediate is the low half, and its sign is bit 15. -/
theorem enciImmediateIsSignedLowHalf : Obligations.EnciImmediateIsSignedLowHalf := by
  intro w hw
  have hlow : (w.extractLsb' 0 16).toNat = w.toNat % 65536 := by simp
  refine ⟨_, decode_of_enciRow hw, ?_⟩
  rw [Machine.sext16, BitVec.toInt_eq_toNat_cond, hlow]
  split <;> split <;> omega

/-! ## Counting the legal words (30_encoding R66) -/

theorem encode_injective : Function.Injective encode := by
  intro i j h
  have hdecode : decode (encode i) = .ok j := h ▸ decode_encode j
  exact Except.ok.inj ((decode_encode i).symm.trans hdecode)

/-- The commands: 65536 of them have an immediate and six have none. -/
def instrEquiv : Instr ≃ Sample ⊕ Fin 6 where
  toFun
    | .enci imm => .inl imm
    | .nop => .inr 0
    | .enc => .inr 1
    | .encm => .inr 2
    | .loc => .inr 3
    | .hdr => .inr 4
    | .rst => .inr 5
  invFun
    | .inl imm => .enci imm
    | .inr 0 => .nop
    | .inr 1 => .enc
    | .inr 2 => .encm
    | .inr 3 => .loc
    | .inr 4 => .hdr
    | .inr 5 => .rst
  left_inv i := by cases i <;> rfl
  right_inv
    | .inl _ => rfl
    | .inr k => by fin_cases k <;> rfl

theorem card_instr : Nat.card Instr = 65542 := by
  have himm : Nat.card Sample = 65536 := (Nat.card_congr BitVec.equivFin.toEquiv).trans (Nat.card_fin _)
  rw [Nat.card_congr instrEquiv, Nat.card_sum, himm, Nat.card_fin]

/-- Settles O6: the legal words are the words of the commands, one each. -/
theorem legalWordCount : Obligations.LegalWordCount := by
  unfold Obligations.LegalWordCount
  simp only [decode_eq_ok_iff]
  exact (Nat.card_range_of_injective encode_injective).trans card_instr

/-- Settles O1: seven of the words are those of the encoder; no row covers the other two. -/
theorem specWordsDecode : Obligations.SpecWordsDecode :=
  ⟨decode_encode .nop, decode_encode .enc, decode_encode (.enci 0xFC18), decode_encode .encm, decode_encode .loc,
    decode_encode .hdr, decode_encode .rst, by decide, by decide⟩

end Sys2Proof

/-! ## The text form (30_encoding R67, R68) -/

namespace Sys2Proof.Machine

theorem encode_enci_ofInt (imm : Int) :
    encode (.enci (BitVec.ofInt 16 imm)) = BitVec.ofInt 32 (0x02000000 + imm % 65536) := by
  have hword : (encode (.enci (BitVec.ofInt 16 imm))).toNat = 0x02000000 + (BitVec.ofInt 16 imm).toNat :=
    Laws.EncodedWord.enci _
  apply BitVec.eq_of_toNat_eq
  rw [hword, BitVec.toNat_ofInt, BitVec.toNat_ofInt]
  omega

/-- Settles O57: the fixed words by evaluation, the word of `enci` from its number. -/
theorem commandLinesWriteTheirWords : Obligations.CommandLinesWriteTheirWords := by
  refine ⟨by decide, by decide, by decide, by decide, by decide, by decide, fun imm _ _ => ?_⟩
  simp only [AsmLine.events, commandEvent, encode_enci_ofInt]

/-- A command line executes its command (10_state R13). -/
theorem perform_commandEvent (i : Instr) (s : State) : perform (commandEvent i) s = exec i s := by
  have hwrite : perform (commandEvent i) s = runCommand (encode i) s := rfl
  rw [hwrite, runCommand, decode_encode]

/-- The write of a 16-bit value to `SAMPLE` stores that value (10_state R15). -/
theorem perform_write_sample (v : Sample) (s : State) :
    perform (.writeReg (slotIndex .sample) (zext32 v)) s = .next { s with sample := v } := by
  rw [perform_writeReg s (zext32 v) (slotOf_slotIndex .sample) (by decide), writeSlot_sample, zext32,
    BitVec.setWidth_setWidth_of_le v (by decide), BitVec.setWidth_eq]

/-- The two actions of `encs` (R68). -/
theorem performAll_encs (v : Sample) (s : State) :
    performAll [.writeReg (slotIndex .sample) (zext32 v), commandEvent .enc] s =
      .next (State.setErr 0#4 { s with sample := v, code := ulaw s.cfg v }) := by
  simp only [performAll, perform_write_sample, perform_commandEvent, exec_enc, andThen_next]

/-- A text that starts with `check` reads `STATUS`, then goes on with its other lines or aborts (R68). -/
theorem runLines_check (ls : List AsmLine) (output : Option OutRange) (s : State) :
    runLines (.check :: ls) output s =
      runSequence (if s.err = 0 then linesSequence s.cfg ls output else .aborted .failedCheck)
        { s with answers := .reg 1 (s.status &&& 0xF1#32) :: s.answers } :=
  run_checkErr .failedCheck (linesSequence s.cfg ls output) s

/-- Settles O58: `encs` is its two actions, and `check` is one read of `STATUS` and the host's choice. -/
theorem encsAndCheck : Obligations.EncsAndCheck := by
  refine ⟨fun v s _ _ => ?_, fun ls output s => ⟨fun herr => ?_, fun herr => ?_⟩⟩
  · have hsequence : runLines [.encs v] none s =
        runSequence (actions [.writeReg (slotIndex .sample) (zext32 (BitVec.ofInt 16 v)), commandEvent .enc]
          (.done ⟨0, 0⟩)) s := rfl
    rw [hsequence, run_actions, performAll_encs, ← putErr_zero]
    rfl
  · rw [runLines_check, if_neg herr]
    exact ⟨_, rfl⟩
  · rw [runLines_check, if_pos herr]
    exact ⟨{ s with answers := .reg 1 (s.status &&& 0xF1#32) :: s.answers }, rfl, rfl⟩

end Sys2Proof.Machine

/-! # The Chunk Locator (obligations O24 to O27) -/

namespace Sys2Proof.Machine

open Sys2Proof.Claims

/-! ## `LOCATE` on a byte sequence (40_chunk_locator R80 to R82)

The loop over positions is the library's first index in the list of the sequence's tails. -/

section
variable {m buf : List Byte} {p : Nat}

/-- The bytes of a marker stand at `p` when they begin what is left from `p` on. -/
theorem bytesAt_iff_prefix (hm : m.length = 4) : BytesAt buf m p ↔ m <+: buf.drop p := by
  constructor
  · rintro ⟨hfit, hbytes⟩
    refine List.prefix_iff_getElem?.mpr fun k hk => ?_
    rw [List.getElem?_drop, hbytes k (by omega), List.getElem?_eq_getElem hk]
  · intro h
    have hlen := h.length_le
    rw [List.length_drop] at hlen
    refine ⟨by omega, fun k hk => ?_⟩
    rw [← List.getElem?_drop, List.prefix_iff_getElem?.mp h k (by omega), List.getElem?_eq_getElem]

theorem locateFrom_eq_findIdx? (hm : m ≠ []) :
    locateFrom m buf p = (buf.tails.findIdx? m.isPrefixOf).map (· + p) := by
  induction buf generalizing p with
  | nil => cases m with
    | nil => exact absurd rfl hm
    | cons b bs => rfl
  | cons b bs ih =>
    rw [locateFrom, List.tails_cons, List.findIdx?_cons]
    split
    · simp
    · rw [ih, Option.map_map]
      congr 1
      funext q
      simp only [Function.comp_apply]
      omega

theorem locate_eq_findIdx? (hm : m.length = 4) : locate m buf = buf.tails.findIdx? m.isPrefixOf := by
  have hne : m ≠ [] := by rintro rfl; cases hm
  simp [locate, locateFrom_eq_findIdx? hne]

theorem locate_eq_some_iff (hm : m.length = 4) :
    locate m buf = some p ↔ BytesAt buf m p ∧ ∀ q, q < p → ¬ BytesAt buf m q := by
  simp only [locate_eq_findIdx? hm, List.findIdx?_eq_some_iff_getElem, List.getElem_tails, List.isPrefixOf_iff_prefix,
    bytesAt_iff_prefix hm]
  refine ⟨fun ⟨_, h⟩ => h, fun h => ⟨?_, h⟩⟩
  have hfit := ((bytesAt_iff_prefix hm).mpr h.1).1
  rw [List.length_tails]
  omega

theorem locate_eq_none_iff (hm : m.length = 4) : locate m buf = none ↔ ∀ p, ¬ BytesAt buf m p := by
  rw [← not_iff_not, not_forall_not, ← ne_eq, Option.ne_none_iff_exists']
  refine ⟨fun ⟨p, hp⟩ => ⟨p, ((locate_eq_some_iff hm).mp hp).1⟩, fun h => ?_⟩
  classical
  exact ⟨Nat.find h, (locate_eq_some_iff hm).mpr ⟨Nat.find_spec h, fun _ => Nat.find_min h⟩⟩

end

/-- Settles O26. -/
theorem locateIsTheLeastPosition : Obligations.LocateIsTheLeastPosition :=
  fun _ _ hm => ⟨fun _ => locate_eq_some_iff hm, locate_eq_none_iff hm⟩

/-! ## The search of `LOC` over bytes that have values (40_chunk_locator R84) -/

section
variable {mem : Memory} {w : Word} {p q n k len : Nat}

theorem Memory.hasBytes_of_le (h : mem.hasBytes 0 n) (hq : q + k ≤ n) : mem.hasBytes q k := by
  intro i hi
  simpa using h (q + i) (by omega)

theorem Memory.hasBytes_of_readBytes {buf : List Byte} (h : mem.readBytes p n = .ok buf) : mem.hasBytes p n := by
  obtain ⟨hlen, hread⟩ := (Memory.readBytes_ok mem p n buf).mp h
  intro k hk
  exact ⟨buf[k], by rw [hread k hk, List.getElem?_eq_getElem]⟩

/-- Below the end of a marker every byte has a value when every byte below its start has. -/
theorem hasBytes_through_marker (hbelow : mem.hasBytes 0 p) (hat : MarkerAt mem w p) : mem.hasBytes 0 (p + 4) := by
  intro k hk
  rw [Nat.zero_add]
  obtain hlt | hge := Nat.lt_or_ge k p
  · simpa using hbelow k hlt
  · have hbyte := hat (k - p) (by omega)
    rw [Nat.add_sub_cancel' hge] at hbyte
    exact ⟨_, hbyte⟩

theorem matchAt_markerBytes_false (h : mem.hasBytes q 4) (hno : ¬ MarkerAt mem w q) :
    matchAt mem (markerBytes w) q = .ok false :=
  (matchAt_of_hasBytes mem (markerBytes w) q h).resolve_left fun hmatch => hno (matchAt_markerBytes_iff.mp hmatch)

/-- The search ends at the lowest marker, if every byte below it has a value. -/
theorem search_lowest_marker (hlen : p + 4 ≤ len) (hbelow : mem.hasBytes 0 p) (hat : MarkerAt mem w p)
    (hno : ∀ q, q < p → ¬ MarkerAt mem w q) : search mem (markerBytes w) len = .ok (some p) := by
  have hmatch : matchAt mem (markerBytes w) p = .ok true := matchAt_markerBytes_iff.mpr hat
  have hbefore : ∀ q, 0 ≤ q → q < p → matchAt mem (markerBytes w) q = .ok false := fun q _ hq =>
    matchAt_markerBytes_false (Memory.hasBytes_of_le (hasBytes_through_marker hbelow hat) (by omega)) (hno q hq)
  rw [search, searchFrom_eq mem _ _ 0 p (Nat.zero_le p) (by omega) hbefore (by rw [hmatch]; nofun), hmatch]

/-- The search finds nothing among bytes that have values and hold no marker. -/
theorem search_no_marker (hbytes : mem.hasBytes 0 len) (hno : ∀ p, p + 4 ≤ len → ¬ MarkerAt mem w p) :
    search mem (markerBytes w) len = .ok none :=
  searchFrom_none mem _ _ 0 fun p _ hp =>
    matchAt_markerBytes_false (Memory.hasBytes_of_le hbytes (by omega)) (hno p (by omega))

/-- Fewer than four bytes give the search no position (R82). -/
theorem search_short (h : len < 4) : search mem (markerBytes w) len = .ok none := by
  rw [search, show len - 3 = 0 by omega, searchFrom]

/-- A marker stands in the buffer where its bytes stand in the sequence read from the buffer. -/
theorem markerAt_iff_bytesAt {buf : List Byte} (h : mem.readBytes 0 len = .ok buf) (hp : p + 4 ≤ len) :
    MarkerAt mem w p ↔ BytesAt buf (markerBytes w) p := by
  obtain ⟨rfl, hread⟩ := (Memory.readBytes_ok mem 0 len buf).mp h
  rw [BytesAt, and_iff_right hp, MarkerAt]
  refine forall₂_congr fun k hk => ?_
  rw [markerBytes_getElem w k hk, ← hread (p + k) (by omega), Nat.zero_add]

/-- Over bytes that all have values the search is `LOCATE` of those bytes. -/
theorem search_eq_locate {buf : List Byte} (h : mem.readBytes 0 len = .ok buf) :
    search mem (markerBytes w) len = .ok (locate (markerBytes w) buf) := by
  have hbytes : mem.hasBytes 0 len := Memory.hasBytes_of_readBytes h
  have hbuf : buf.length = len := ((Memory.readBytes_ok mem 0 len buf).mp h).1
  cases hl : locate (markerBytes w) buf with
  | none =>
    have hno := (locate_eq_none_iff (markerBytes_length w)).mp hl
    exact search_no_marker hbytes fun p hp hat => hno p ((markerAt_iff_bytesAt h hp).mp hat)
  | some p =>
    obtain ⟨hat, hno⟩ := (locate_eq_some_iff (markerBytes_length w)).mp hl
    have hp : p + 4 ≤ len := hbuf ▸ hat.1
    exact search_lowest_marker hp (Memory.hasBytes_of_le hbytes (by omega))
      ((markerAt_iff_bytesAt h hp).mpr hat)
      fun q hq hatq => hno q hq ((markerAt_iff_bytesAt h (by omega)).mp hatq)

end

/-! ## The obligations about `LOC` -/

/-- What `LOC` leaves where it finds the marker, with `STATUS` as a mask. -/
theorem located_state_eq (s : State) (o : Word) :
    State.setErr 0#4 (State.setFound true { s with offset := o }) =
      { s with offset := o, status := (s.status &&& 0xFFFFFF0E#32) ||| 1#32 } := by
  rw [← putErr_zero_putFound_true]; rfl

/-- What `LOC` leaves where it finds no marker, with `STATUS` as a mask. -/
theorem not_located_state_eq (s : State) :
    State.setErr 0#4 (State.setFound false { s with offset := 0#32 }) =
      { s with offset := 0#32, status := s.status &&& 0xFFFFFF0E#32 } := by
  rw [← putErr_zero_putFound_false]; rfl

/-- Settles O24. -/
theorem locFindsTheLowestMarker : Obligations.LocFindsTheLowestMarker := by
  refine ⟨BitVec.eq_of_toNat_eq Laws.EncodedWord.loc, fun s => ⟨fun hlong => ?_, fun hilen => ?_⟩⟩
  · rw [exec_loc_err s ((ilenTooLong_iff s).mpr hlong), ← putErr_bounds]
    rfl
  · have hfits : ilenTooLong s = false := (ilenTooLong_false_iff s).mpr hilen
    refine ⟨fun p hp hbelow hat hno => ?_, fun hbytes hno => ?_⟩
    · rw [exec_loc_found s hfits p (search_lowest_marker hp hbelow hat hno), located_state_eq]
    · rw [exec_loc_not_found s hfits (search_no_marker hbytes hno), not_located_state_eq]

/-- Settles O25: the marker's last byte lies inside the sequence, and `LOC` has no position to try. -/
theorem locShortBufferFindsNothing : Obligations.LocShortBufferFindsNothing := by
  refine ⟨fun m buf hm hshort => ?_, fun m buf p hm hp => ?_, fun s hshort hilen => ?_⟩
  · exact (locate_eq_none_iff hm).mpr fun p ⟨hfit, _⟩ => by omega
  · obtain ⟨⟨hfit, -⟩, -⟩ := (locate_eq_some_iff hm).mp hp
    omega
  · rw [exec_loc_not_found s ((ilenTooLong_false_iff s).mpr hilen) (search_short hshort), not_located_state_eq]

/-- Settles O27: the search is `LOCATE`, and `LOC` stores what it answers. -/
theorem locRefinesLocate : Obligations.LocRefinesLocate := by
  intro s buf hilen hbuf
  have hfits : ilenTooLong s = false := (ilenTooLong_false_iff s).mpr hilen
  have hsearch := search_eq_locate (w := s.marker) hbuf
  cases hl : locate (markerBytes s.marker) buf with
  | none => exact ⟨_, exec_loc_not_found s hfits (hl ▸ hsearch), by simp, by simp, by simp⟩
  | some p => exact ⟨_, exec_loc_found s hfits p (hl ▸ hsearch), by simp, by simp, by simp⟩

end Sys2Proof.Machine

/-! # The Sample Encoder (obligations O21 to O23 and O44 to O50)

With the table of R27 the exponent is a logarithm (`exponent_eq_log`). The code byte is read in numbers: its low seven
bits are 127 minus the level `16 e + m` (`ulaw_mod_128`), which the biased magnitude alone decides, and its top bit is
the sign flag's complement, so that the other sign flag gives the code XOR 0x80 (`ulaw_flip`). -/

namespace Sys2Proof.Machine

open Sys2Proof.Claims

/-! ## The exponent and the mantissa under the table of 10_state R27 -/

section
variable {c : Config} (s : Sample)

/-- The table looks up the leading bit of the biased sample (41_sample_encoder R105). -/
theorem exponent_eq_log (htable : c.ctab = ctabR27) : (exponent c s).toNat = Nat.log 2 (biased s) - 7 := by
  have hge := biased_ge s
  have hle := biased_le s
  have hlog : Nat.log 2 (biased s / 128) = Nat.log 2 (biased s) - 7 := Nat.log_div_base_pow 2 (biased s) 7
  have hentry := tableIsTheLeadingBit.2 (biased s / 128) _ (by omega) (by omega)
    (Nat.pow_log_le_self 2 (by omega)) (Nat.lt_pow_succ_log_self (by decide) _)
  rw [← htable, exponent_lookup] at hentry
  have hlt : Nat.log 2 (biased s) < 15 := Nat.log_lt_of_lt_pow (by omega) (by omega)
  rw [Option.some.inj hentry, BitVec.toNat_ofNat, hlog]
  omega

theorem biased_bounds (htable : c.ctab = ctabR27) :
    2 ^ ((exponent c s).toNat + 7) ≤ biased s ∧ biased s < 2 ^ ((exponent c s).toNat + 8) := by
  have hge := biased_ge s
  have hlog : 7 ≤ Nat.log 2 (biased s) := Nat.le_log_of_pow_le (by decide) (by omega)
  have hsucc : Nat.log 2 (biased s) - 7 + 8 = Nat.log 2 (biased s) + 1 := by omega
  rw [exponent_eq_log s htable, Nat.sub_add_cancel hlog, hsucc]
  exact ⟨Nat.pow_log_le_self 2 (by omega), Nat.lt_pow_succ_log_self (by decide) _⟩

/-- The leading bit and the four bits behind it: the leading one is the 16 that the mantissa leaves out (R106, R111). -/
theorem biased_div_eq (htable : c.ctab = ctabR27) :
    biased s / 2 ^ ((exponent c s).toNat + 3) = 16 + mantissa c s := by
  obtain ⟨hlow, hhigh⟩ := biased_bounds s htable
  have hlow' : 2 ^ ((exponent c s).toNat + 7) = 16 * 2 ^ ((exponent c s).toNat + 3) := by ring
  have hhigh' : 2 ^ ((exponent c s).toNat + 8) = 32 * 2 ^ ((exponent c s).toNat + 3) := by ring
  rw [hlow', ← Nat.le_div_iff_mul_le (by positivity)] at hlow
  rw [hhigh', ← Nat.div_lt_iff_lt_mul (by positivity)] at hhigh
  rw [mantissa_eq]
  omega

variable {s}

/-- The biased magnitudes of one exponent and one mantissa are a run of length `2^(e+3)`. -/
theorem fields_of_bounds {e m : Nat} (htable : c.ctab = ctabR27) (hm : m < 16)
    (hlow : 2 ^ (e + 3) * (16 + m) ≤ biased s) (hhigh : biased s < 2 ^ (e + 3) * (17 + m)) :
    (exponent c s).toNat = e ∧ mantissa c s = m := by
  have hlow' : 2 ^ (e + 7) ≤ biased s :=
    calc 2 ^ (e + 7) = 2 ^ (e + 3) * 16 := by ring
      _ ≤ 2 ^ (e + 3) * (16 + m) := Nat.mul_le_mul_left _ (by omega)
      _ ≤ biased s := hlow
  have hhigh' : biased s < 2 ^ (e + 7 + 1) :=
    calc biased s < 2 ^ (e + 3) * (17 + m) := hhigh
      _ ≤ 2 ^ (e + 3) * 32 := Nat.mul_le_mul_left _ (by omega)
      _ = 2 ^ (e + 7 + 1) := by ring
  have he : (exponent c s).toNat = e := by
    rw [exponent_eq_log s htable, Nat.log_eq_of_pow_le_of_lt_pow hlow' hhigh', Nat.add_sub_cancel]
  have hdiv := biased_div_eq s htable
  have hquot : biased s / 2 ^ (e + 3) = 16 + m := Nat.div_eq_of_lt_le (Nat.mul_comm _ _ ▸ hlow) (by
    rwa [Nat.mul_comm, show 16 + m + 1 = 17 + m by omega])
  rw [he, hquot] at hdiv
  exact ⟨he, by omega⟩

/-- A larger biased magnitude has no smaller level: the exponent decides, and under one exponent the mantissa. -/
theorem level_mono {u : Sample} (htable : c.ctab = ctabR27) (h : biased s ≤ biased u) :
    16 * (exponent c s).toNat + mantissa c s ≤ 16 * (exponent c u).toNat + mantissa c u := by
  have hexp : (exponent c s).toNat ≤ (exponent c u).toNat := by
    rw [exponent_eq_log s htable, exponent_eq_log u htable]
    exact Nat.sub_le_sub_right (Nat.log_mono_right h) 7
  obtain heq | hlt := hexp.eq_or_lt
  · have hdiv : biased s / 2 ^ ((exponent c s).toNat + 3) ≤ biased u / 2 ^ ((exponent c s).toNat + 3) :=
      Nat.div_le_div_right h
    rw [biased_div_eq s htable, heq, biased_div_eq u htable] at hdiv
    omega
  · have hs := mantissa_lt c s
    omega

end

/-! ## Every level occurs (41_sample_encoder R111) -/

/-- The non-negative sample with a given biased magnitude. -/
def sampleOfBiased (b : Nat) : Sample := BitVec.ofNat 16 (b - 132)

theorem toInt_sampleOfBiased {b : Nat} (h : b ≤ 32767) : (sampleOfBiased b).toInt = (b - 132 : Nat) := by
  rw [sampleOfBiased, BitVec.toInt_ofNat', Int.bmod_eq_of_le] <;> omega

theorem biased_sampleOfBiased {b : Nat} (hlow : 132 ≤ b) (hhigh : b ≤ 32767) : biased (sampleOfBiased b) = b := by
  rw [biased_eq, toInt_sampleOfBiased hhigh]
  omega

/-- Each exponent and mantissa has a sample; the largest one is positive, also where both are 0. -/
theorem exists_sample_of_fields {c : Config} {e m : Nat} (htable : c.ctab = ctabR27) (he : e < 8) (hm : m < 16) :
    ∃ s : Sample, 1 ≤ s.toInt ∧ (exponent c s).toNat = e ∧ mantissa c s = m := by
  have hstep : 8 ≤ 2 ^ (e + 3) := Nat.pow_le_pow_right (n := 2) (by decide) (by omega : 3 ≤ e + 3)
  have hstep' : 2 ^ (e + 3) ≤ 1024 := Nat.pow_le_pow_right (n := 2) (by decide) (by omega : e + 3 ≤ 10)
  have hge : 8 * 17 ≤ 2 ^ (e + 3) * (17 + m) := Nat.mul_le_mul hstep (by omega)
  have hle : 2 ^ (e + 3) * (17 + m) ≤ 1024 * 32 := Nat.mul_le_mul hstep' (by omega)
  have hrun : 2 ^ (e + 3) * (17 + m) = 2 ^ (e + 3) * (16 + m) + 2 ^ (e + 3) := by ring
  have hbiased := biased_sampleOfBiased (b := 2 ^ (e + 3) * (17 + m) - 1) (by omega) (by omega)
  refine ⟨sampleOfBiased (2 ^ (e + 3) * (17 + m) - 1), ?_, fields_of_bounds htable hm (by omega) (by omega)⟩
  rw [toInt_sampleOfBiased (by omega)]
  omega

/-! ## The sign flag and the low seven bits -/

section
variable {c c' : Config} {s u : Sample}

/-- A legal sign flag (00_scope R5). -/
def LegalSign (c : Config) : Prop := c.signNonneg = 0x80#8 ∨ c.signNonneg = 0x00#8

theorem signFlag_eq (c : Config) (s : Sample) :
    signFlag c s = if s.toInt < 0 then 0x80#8 ^^^ c.signNonneg else c.signNonneg := by
  simp only [signFlag, msb_iff_neg]

theorem signFlag_congr (c : Config) (h : s.toInt < 0 ↔ u.toInt < 0) : signFlag c s = signFlag c u := by
  simp only [signFlag_eq, h]

/-- Sign and biased magnitude decide the code. -/
theorem ulaw_eq_of_biased (c : Config) (h : s.toInt < 0 ↔ u.toInt < 0) (hb : biased s = biased u) :
    ulaw c s = ulaw c u := by
  rw [ulaw, packed, signFlag_congr c h, exponent_congr c s u hb, mantissa_congr c s u hb, ← packed, ← ulaw]

/-- The sign flag takes bit 7 only, exponent and mantissa take the others. -/
theorem ulaw_mod_128 (hsign : LegalSign c) :
    (ulaw c s).toNat % 128 = 127 - (16 * (exponent c s).toNat + mantissa c s) := by
  have he := (exponent c s).isLt
  have hm := mantissa_lt c s
  rw [ulaw_toNat c s hsign]
  obtain hflag | hflag := signFlag_cases c s hsign <;> rw [hflag] <;> simp <;> omega

theorem ulaw_low_bits (hsign : LegalSign c) :
    ((ulaw c s).extractLsb' 0 7).toNat = 127 - (16 * (exponent c s).toNat + mantissa c s) := by
  rw [BitVec.extractLsb'_toNat, Nat.shiftRight_zero]
  exact ulaw_mod_128 hsign

theorem ulaw_top_bit (hsign : LegalSign c) : (ulaw c s).getLsbD 7 = decide (signFlag c s = 0x00#8) := by
  rw [ulaw, packed, ofNat_mantissa, pack_top_bit _ _ _ (signFlag_cases c s hsign)]

theorem toNat_xor_0x80 : ∀ x : Byte, (x ^^^ 0x80#8).toNat = (x.toNat + 128) % 256 := by decide

/-- The opposite sign flag over the same exponent and mantissa. -/
theorem ulaw_flip (hsign : LegalSign c) (hsign' : LegalSign c') (hflag : signFlag c' u = signFlag c s ^^^ 0x80#8)
    (he : exponent c' u = exponent c s) (hm : mantissa c' u = mantissa c s) : ulaw c' u = ulaw c s ^^^ 0x80#8 := by
  have he' := (exponent c s).isLt
  have hm' := mantissa_lt c s
  apply BitVec.eq_of_toNat_eq
  rw [toNat_xor_0x80, ulaw_toNat c s hsign, ulaw_toNat c' u hsign', hflag, he, hm, toNat_xor_0x80]
  obtain hflag | hflag := signFlag_cases c s hsign <;> rw [hflag] <;> simp <;> omega

end

/-! ## The obligations about `ULAW` -/

theorem legalSign_of_thisHardware {c : Config} (h : ThisHardware c) : LegalSign c := .inl h.1

/-- The codes of this hardware are computed with the parameters of reset. -/
theorem ulaw_of_thisHardware {c : Config} (h : ThisHardware c) (s : Sample) : ulaw c s = ulaw resetConfig s :=
  ulaw_congr h.1 h.2 s

/-- Settles O44. -/
theorem ulawFollowsTheEightSteps : Obligations.UlawFollowsTheEightSteps := by
  intro c s hsign
  have hb : (biased s : Int) = min (if s.toInt < 0 then -s.toInt else s.toInt) 32635 + 132 := by
    rw [biased_eq]
    split <;> omega
  exact ⟨(signFlag c s).toNat, biased s, mantissa c s, exponent c s, signFlag_toNat c s hsign, hb,
    exponent_lookup c s, mantissa_eq c s, ulaw_toNat c s hsign⟩

/-- Settles O45: with the table of R27 the exponent is the place of the leading bit. -/
theorem tableIndexInRange : Obligations.TableIndexInRange := by
  intro c s
  have hge := biased_ge s
  have hle := biased_le s
  have hindex : biased s >>> 7 = biased s / 128 := Nat.shiftRight_eq_div_pow _ 7
  rw [hindex]
  exact ⟨exponent_lookup c s, hge, hle, by omega, by omega, biased_bounds s⟩

/-- Settles O46. -/
theorem codeByteFields : Obligations.CodeByteFields := by
  intro c s hc
  have hsign := legalSign_of_thisHardware hc
  have he := (exponent c s).isLt
  have hm := mantissa_lt c s
  have hlow := ulaw_mod_128 (s := s) hsign
  have hb : (biased s : Int) = min (s.toInt.natAbs : Int) 32635 + 132 := by rw [biased_eq]; omega
  have htop : (ulaw c s).getLsbD 7 = decide (s.toInt < 0) := by
    rw [ulaw_top_bit hsign, signFlag_eq, hc.1]
    split <;> simp [*]
  refine ⟨biased s, (exponent c s).toNat, mantissa c s, hb, exponent_eq_log s hc.2, ?_, by omega, by omega, htop,
    ?_, ?_⟩
  · rw [biased_div_eq s hc.2, Nat.add_sub_cancel_left]
  · rw [BitVec.extractLsb'_toNat, Nat.shiftRight_eq_div_pow]
    omega
  · rw [BitVec.extractLsb'_toNat, Nat.shiftRight_zero]
    omega

/-- Settles O48: a negation and the other polarity flip the sign flag, and nothing else depends on the sign. -/
theorem ulawSignSymmetry : Obligations.UlawSignSymmetry := by
  intro c hsign
  refine ⟨fun s hpos hle => ?_, ulaw_eq_of_biased c (by decide) (by decide), fun s u hmag => ?_,
    fun s u hneg => ?_, fun s => ?_⟩
  · have hint : (-s).toInt = -s.toInt := BitVec.toInt_neg_of_ne_intMin (by rintro rfl; revert hpos; decide)
    have hb : biased (-s) = biased s := by rw [biased_eq, biased_eq, hint, Int.natAbs_neg]
    refine ulaw_flip hsign hsign ?_ (exponent_congr c _ _ hb) (mantissa_congr c _ _ hb)
    rw [signFlag_eq, signFlag_eq, if_pos (by omega), if_neg (by omega), BitVec.xor_comm]
  · have hb : biased s = biased u := by rw [biased_eq, biased_eq, hmag]
    apply BitVec.eq_of_toNat_eq
    rw [ulaw_low_bits hsign, ulaw_low_bits hsign, exponent_congr c s u hb, mantissa_congr c s u hb]
  · rw [ulaw_top_bit hsign, ulaw_top_bit hsign, signFlag_congr c hneg]
  · have hsign' : LegalSign { c with signNonneg := 0x80#8 ^^^ c.signNonneg } := by
      obtain h | h := hsign <;> simp [LegalSign, h]
    refine ulaw_flip hsign hsign' ?_ (exponent_config rfl s) (mantissa_config rfl s)
    rw [signFlag_eq, signFlag_eq]
    split <;> simp [BitVec.xor_comm]

/-- Settles O47: some non-negative sample has the code's low seven bits, and its negation the other top bit. -/
theorem everyCodeOccurs : Obligations.EveryCodeOccurs := by
  intro c b hsign htable
  have hb := b.isLt
  obtain ⟨s, hpos, he, hm⟩ := exists_sample_of_fields htable (e := (127 - b.toNat % 128) / 16)
    (m := (127 - b.toNat % 128) % 16) (by omega) (by omega)
  have hlow := ulaw_mod_128 (s := s) hsign
  rw [he, hm] at hlow
  have hlt := (ulaw c s).isLt
  by_cases htop : (ulaw c s).toNat / 128 = b.toNat / 128
  · exact ⟨s, BitVec.eq_of_toNat_eq (by omega)⟩
  · refine ⟨-s, BitVec.eq_of_toNat_eq ?_⟩
    have hle : s.toInt ≤ 32767 := Int.le_of_lt_add_one BitVec.toInt_lt
    rw [(ulawSignSymmetry c hsign).1 s hpos hle, toNat_xor_0x80]
    omega

/-! The extreme codes, as changes of the sign flag (41_sample_encoder R113). -/

theorem ulaw_of_small {c : Config} {s : Sample} (htable : c.ctab = ctabR27) (h : s.toInt.natAbs ≤ 3) :
    ulaw c s = ~~~ signFlag c s := by
  have hb : 128 ≤ biased s ∧ biased s < 136 := by rw [biased_eq]; omega
  obtain ⟨he, hm⟩ : (exponent c s).toNat = 0 ∧ mantissa c s = 0 :=
    fields_of_bounds htable (by decide) (by omega) (by omega)
  have he' : exponent c s = 0#3 := BitVec.eq_of_toNat_eq he
  simp [ulaw, packed, he', hm]

theorem ulaw_of_large {c : Config} {s : Sample} (hsign : LegalSign c) (htable : c.ctab = ctabR27)
    (h : 31612 ≤ s.toInt.natAbs) : ulaw c s = signFlag c s ^^^ 0x80#8 := by
  have hb : 31744 ≤ biased s ∧ biased s < 32768 := by rw [biased_eq]; omega
  obtain ⟨he, hm⟩ : (exponent c s).toNat = 7 ∧ mantissa c s = 15 :=
    fields_of_bounds htable (by decide) (by omega) (by omega)
  have he' : exponent c s = 7#3 := BitVec.eq_of_toNat_eq he
  rw [ulaw, packed, he', hm]
  obtain hflag | hflag := signFlag_cases c s hsign <;> rw [hflag] <;> decide

/-- The extreme codes of either polarity (R113). -/
theorem ulaw_extremes {c : Config} (hsign : LegalSign c) (htable : c.ctab = ctabR27) (s : Sample) :
    (0 ≤ s.toInt → s.toInt ≤ 3 → ulaw c s = ~~~ c.signNonneg) ∧
    (-3 ≤ s.toInt → s.toInt ≤ -1 → ulaw c s = ~~~ (0x80#8 ^^^ c.signNonneg)) ∧
    (31612 ≤ s.toInt → ulaw c s = c.signNonneg ^^^ 0x80#8) ∧
    (s.toInt ≤ -31612 → ulaw c s = 0x80#8 ^^^ c.signNonneg ^^^ 0x80#8) := by
  refine ⟨fun h h' => ?_, fun h h' => ?_, fun h => ?_, fun h => ?_⟩
  · rw [ulaw_of_small htable (by omega), signFlag_eq, if_neg (by omega)]
  · rw [ulaw_of_small htable (by omega), signFlag_eq, if_pos (by omega)]
  · rw [ulaw_of_large hsign htable (by omega), signFlag_eq, if_neg (by omega)]
  · rw [ulaw_of_large hsign htable (by omega), signFlag_eq, if_pos (by omega)]

/-- Settles O49. -/
theorem ulawExtremes : Obligations.UlawExtremes := by
  intro c s htable
  refine ⟨fun h => ?_, fun h => ?_⟩
  · have hcodes := ulaw_extremes (.inl h) htable s
    rw [h] at hcodes
    exact hcodes
  · have hcodes := ulaw_extremes (.inr h) htable s
    rw [h] at hcodes
    exact hcodes

/-- Settles O50. -/
theorem lowBitsFallWithMagnitude : Obligations.LowBitsFallWithMagnitude := by
  intro c s u hc hmag
  have hb : biased s ≤ biased u := by rw [biased_eq, biased_eq]; omega
  have hsign := legalSign_of_thisHardware hc
  rw [ulaw_low_bits hsign, ulaw_low_bits hsign]
  exact Nat.sub_le_sub_left (level_mono hc.2 hb) 127

/-! ## The words of the encoder's commands (30_encoding R61 to R66) -/

theorem encode_enci_eq_or (imm : Sample) : encode (.enci imm) = 0x02000000#32 ||| imm.setWidth 32 := by
  have hword : (encode (.enci imm)).toNat = 2 ^ 16 * 0x0200 + imm.toNat := Laws.EncodedWord.enci imm
  have himm := imm.isLt
  apply BitVec.eq_of_toNat_eq
  rw [hword, Nat.two_pow_add_eq_or_of_lt himm, BitVec.toNat_or, BitVec.toNat_setWidth_of_le (by decide)]
  rfl

theorem encode_toNat (i : Instr) : (encode i).toNat = Laws.EncodedWord.number i := by
  cases i with
  | enci imm => exact Laws.EncodedWord.enci imm
  | _ => rfl

/-- A word with the opcode of `ENCI` is legal only with zero bits [23:16] (30_encoding R66). -/
theorem decode_ne_ok_of_enci_opcode {w : Word} (hop : w.toNat / 16777216 = 0x02) (hzero : w.toNat / 65536 % 256 ≠ 0)
    (i : Instr) : decode w ≠ .ok i := by
  rw [ne_eq, decode_eq_ok_iff]
  rintro rfl
  rw [encode_toNat] at hop hzero
  cases i with
  | enci imm =>
    have himm := imm.isLt
    simp only [Laws.EncodedWord.number] at hzero
    omega
  | _ => simp [Laws.EncodedWord.number] at hop

/-! ## The commands -/

/-- What `ENC` and `ENCI` leave, with `STATUS` as a mask. -/
theorem encoded_state_eq (s : State) (x : Sample) :
    State.setErr 0#4 { s with code := ulaw s.cfg x } =
      { s with code := ulaw s.cfg x, status := s.status &&& 0xFFFFFF0F#32 } := by
  rw [← putErr_zero]; rfl

/-- Settles O21. -/
theorem encEncodesSample : Obligations.EncEncodesSample := by
  refine ⟨BitVec.eq_of_toNat_eq Laws.EncodedWord.enc, fun s => ?_, fun c hc => ?_⟩
  · rw [exec_enc, encoded_state_eq]
  · simp only [ulaw_of_thisHardware hc, exponent_config (c' := resetConfig) hc.2,
      mantissa_config (c' := resetConfig) hc.2, packed_config (c' := resetConfig) hc.1 hc.2]
    decide

/-- Settles O22. -/
theorem enciEncodesImmediate : Obligations.EnciEncodesImmediate := by
  refine ⟨encode_enci_eq_or, fun w hop => ?_, fun s imm => ?_, fun c hc => ?_⟩
  · have hop' : w.toNat / 16777216 = 0x02 := by
      have h := congrArg BitVec.toNat hop
      have hw := w.isLt
      rw [BitVec.extractLsb'_toNat, Nat.shiftRight_eq_div_pow, BitVec.toNat_ofNat] at h
      omega
    have hzero : w.extractLsb' 16 8 = 0x00#8 ↔ w.toNat / 65536 % 256 = 0 := by
      rw [← BitVec.toNat_inj, BitVec.extractLsb'_toNat, Nat.shiftRight_eq_div_pow]
      rfl
    split
    · rename_i h
      exact decode_of_enciRow (by have := hzero.mp h; omega)
    · rename_i h
      exact decode_ne_ok_of_enci_opcode hop' (mt hzero.mpr h)
  · rw [exec_enci, encoded_state_eq]
  · simp only [ulaw_of_thisHardware hc]
    decide

/-- Settles O23: under the legal sizes neither address wraps. -/
theorem encmEncodesOneSample : Obligations.EncmEncodesOneSample := by
  refine ⟨BitVec.eq_of_toNat_eq Laws.EncodedWord.encm, fun c hc => ?_, fun s hlegal =>
    ⟨fun hout => ?_, fun lo hi hilen hsrc hdst hlo hhi => ?_⟩⟩
  · rw [ulaw_of_thisHardware hc]
    decide
  · rw [exec_encm_err s ((encmOutOfBounds_iff s).mpr hout), ← putErr_bounds]
    rfl
  · simp only [Config.legal, Bool.and_eq_true, decide_eq_true_eq] at hlegal
    obtain ⟨⟨⟨hibuf, -⟩, hobuf⟩, -⟩ := hlegal
    have hin : encmOutOfBounds s = false := (encmOutOfBounds_false_iff s).mpr ⟨hilen, hsrc, hdst⟩
    refine ⟨_, exec_encm_ok s hin (hi ++ lo) (bufferOperand_ok s lo hi hlo hhi), rfl, ?_, ?_, by simp,
      fun a ha => Memory.read_write_other _ _ ha, ?_⟩
    · exact BitVec.toNat_add_of_lt (by simp; omega)
    · exact BitVec.toNat_add_of_lt (by simp; omega)
    · rw [← putErr_zero]
      rfl

end Sys2Proof.Machine

/-! # The Header Synthesizer (obligations O28 and O29)

The header is R131's last column for the number's low 32 bits (`header_eq_headerLayout`): its four-byte fields are the
bytes of words (`le32_eq_fieldBytes`) and the rest is constant. -/

namespace Sys2Proof.Machine

open Sys2Proof.Claims

/-- The bytes of a number's low 32 bits, in ascending order (00_scope R6). -/
theorem le32_eq_fieldBytes (v : Nat) :
    le32 v = [fieldByte (BitVec.ofNat 32 v) 0, fieldByte (BitVec.ofNat 32 v) 1, fieldByte (BitVec.ofNat 32 v) 2,
      fieldByte (BitVec.ofNat 32 v) 3] := by
  simp only [le32, leBytes, fieldByte, List.cons.injEq, and_true, ← BitVec.toNat_inj, BitVec.extractLsb'_toNat,
    BitVec.toNat_ofNat, Nat.shiftRight_eq_div_pow]
  omega

/-- The four-byte fields that depend on `n` are words, the others are R131's constants. -/
theorem header_eq_headerLayout (n : Nat) : header n = headerLayout (BitVec.ofNat 32 n) := by
  have hsize : BitVec.ofNat 32 (n + (headerLength - 8)) = BitVec.ofNat 32 n + 50 := BitVec.ofNat_add ..
  rw [header, le32_eq_fieldBytes (n + _), le32_eq_fieldBytes n, hsize]
  rfl

/-- A 32-bit field of the header is read back as the number it was made of. -/
theorem leNat_le32 {v : Nat} (h : v < 2 ^ 32) : leNat (le32 v) = v := by
  rw [le32, leNat_leBytes]
  exact Nat.mod_eq_of_lt h

/-! A run of bytes stored from address 0 on: its own bytes, and those behind it. -/

theorem Memory.read_writeBytes_zero_below (m : Memory) {bs : List Byte} {a : Nat} (h : a < bs.length) :
    (m.writeBytes 0 bs).read a = bs[a]? := by
  simp [Memory.read_writeBytes, h]

theorem Memory.read_writeBytes_zero_above (m : Memory) {bs : List Byte} {a : Nat} (h : bs.length ≤ a) :
    (m.writeBytes 0 bs).read a = m.read a := by
  simp [Memory.read_writeBytes, h]

/-- Settles O28: the branches of `HDR` are those of the statement, and the bytes it stores are R131's. -/
theorem hdrWritesTheLayout : Obligations.HdrWritesTheLayout := by
  refine ⟨BitVec.eq_of_toNat_eq Laws.EncodedWord.hdr, fun s => ⟨fun hlong => ?_, fun hfits => ?_⟩⟩
  · rw [exec_hdr_err s hlong, ← putErr_len]
    rfl
  · have hbytes : header s.plen.toNat = headerLayout s.plen := by
      rw [header_eq_headerLayout, BitVec.ofNat_toNat, BitVec.setWidth_eq]
    have hlength : (headerLayout s.plen).length = 58 := rfl
    have hexec := exec_hdr_ok s (Nat.not_lt.mpr hfits)
    rw [hbytes] at hexec
    -- Only the number of bytes matters from here on; with the list in sight, `exact` would compute the buffer.
    generalize headerLayout s.plen = bytes at hlength hexec ⊢
    refine ⟨_, hexec, fun a ha => ?_, fun a ha => ?_, ?_⟩
    · exact Memory.read_writeBytes_zero_below s.obuf (ha.trans_eq hlength.symm)
    · exact Memory.read_writeBytes_zero_above s.obuf (hlength.trans_le ha)
    · rw [← putErr_zero]
      rfl

/-- Settles O29: each field is a `le32`, and `n + 50` does not wrap in the range of R140. -/
theorem headerSizeFields : Obligations.HeaderSizeFields := by
  intro n hn
  have hsize : ((header n).drop 4).take 4 = le32 (n + 50) := rfl
  have hcount : ((header n).drop 46).take 4 = le32 n := rfl
  have hlength : ((header n).drop 54).take 4 = le32 n := rfl
  rw [hsize, hcount, hlength, leNat_le32 (by omega), leNat_le32 (by omega)]
  exact ⟨header_length n, rfl, rfl, rfl⟩

end Sys2Proof.Machine

/-! # The control commands (obligations O19 and O20)

`NOP` is a write of 0 to `ERR` (`setErr_zero_eq` says it as a mask on `STATUS`), `RST` the register reset of 10_state
R31. -/

namespace Sys2Proof.Machine

/-- What a command leaves that only succeeds, with `STATUS` as a mask. -/
theorem setErr_zero_eq (s : State) : s.setErr 0#4 = { s with status := s.status &&& 0xFFFFFF0F#32 } := by
  rw [← putErr_zero]; rfl

/-- Settles O19. -/
theorem nopClearsErr : Obligations.NopClearsErr := by
  refine ⟨BitVec.eq_of_toNat_eq Laws.EncodedWord.nop, fun s => ?_⟩
  rw [exec_nop, setErr_zero_eq]

/-- Settles O20: the reset leaves the fields that R152's pseudocode does not name. -/
theorem rstResetsEveryRegister : Obligations.RstResetsEveryRegister :=
  ⟨BitVec.eq_of_toNat_eq Laws.EncodedWord.rst, exec_rst⟩

end Sys2Proof.Machine

/-! # Host sequences (obligations O53 to O56 and O59)

What `TRANSCODE` and `CONCAT` end with is a function of the parameters and the inputs (`transcodeResult`,
`concatResult`), and from every state with legal parameters they end with it (`transcode_endsWith`, `concat_endsWith`).
What the obligations say of the two is then said of those functions. -/

namespace Sys2Proof.Machine

open Sys2Proof.Claims

/-- Settles O59: the lines are their actions, and the end reads the range out. -/
theorem sequenceOutputsTheRangeItNames : Obligations.SequenceOutputsTheRangeItNames := by
  intro ls r s t bs hfixed hactions hrange hbytes
  obtain ⟨as, hdone⟩ := run_done r bs t hrange hbytes
  refine ⟨{ t with answers := as }, rfl, ?_⟩
  rw [runLines, linesSequence, linesBefore_events _ _ _ _ hfixed, run_actions, hactions, andThen_next, Option.getD_some,
    hdone]

/-! ## Runs of bytes in a buffer (20_memory R51) -/

section
variable {m : Memory} {a p n : Nat} {b : Byte} {bs cs : List Byte}

theorem Memory.readBytes_cons_iff :
    m.readBytes a (n + 1) = .ok (b :: bs) ↔ m.read a = some b ∧ m.readBytes (a + 1) n = .ok bs := by
  rw [Memory.readBytes]
  cases m.read a with
  | none => simp
  | some v => cases m.readBytes (a + 1) n <;> simp

/-- A part of a run that was read. -/
theorem Memory.readBytes_part (h : m.readBytes a bs.length = .ok bs) (hp : p + n ≤ bs.length) :
    m.readBytes (a + p) n = .ok ((bs.drop p).take n) := by
  obtain ⟨-, hread⟩ := (Memory.readBytes_ok m a bs.length bs).mp h
  refine (Memory.readBytes_ok m (a + p) n _).mpr ⟨by rw [List.length_take, List.length_drop]; omega, fun k hk => ?_⟩
  rw [List.getElem?_take_of_lt hk, List.getElem?_drop, ← hread (p + k) (by omega), Nat.add_assoc]

theorem Memory.writeBytes_append : m.writeBytes a (bs ++ cs) = (m.writeBytes a bs).writeBytes (a + bs.length) cs := by
  induction bs generalizing m a with
  | nil => rfl
  | cons b bs ih =>
    rw [List.cons_append, Memory.writeBytes, ih, Memory.writeBytes, List.length_cons, Nat.add_right_comm, Nat.add_assoc]

/-- A run stored behind the place of a head that is stored after it: both are read back. -/
theorem Memory.readBytes_head_and_rest :
    ((m.writeBytes bs.length cs).writeBytes 0 bs).readBytes 0 (bs.length + cs.length) = .ok (bs ++ cs) := by
  refine (Memory.readBytes_ok _ 0 _ _).mpr ⟨List.length_append, fun k hk => ?_⟩
  rw [Nat.zero_add]
  obtain hlt | hge := Nat.lt_or_ge k bs.length
  · rw [Memory.read_writeBytes_zero_below _ hlt, List.getElem?_append_left hlt]
  · have hin : k - bs.length < cs.length := by omega
    rw [Memory.read_writeBytes_zero_above _ hge, Memory.read_writeBytes, if_pos hge, List.getElem?_append_right hge,
      List.getElem?_eq_getElem hin, Option.orElse_some]

end

/-! ## How a sequence ends (45_host_sequences R160) -/

/-- The sequence ends with this result, in whatever state. -/
def EndsWith (q : HostSequence) (s : State) (r : SeqResult) : Prop := ∃ t, runSequence q s = .next (r, t)

section
variable {q q' : HostSequence} {s t : State} {r : SeqResult}

theorem endsWith_aborted (s : State) (e : AbortReason) : EndsWith (.aborted e) s (.aborted e) := ⟨s, rfl⟩

theorem EndsWith.of_run_eq (hrun : runSequence q s = runSequence q' t) (h : EndsWith q' t r) : EndsWith q s r :=
  h.imp fun _ hend => hrun.trans hend

theorem EndsWith.act {e : HostEvent} (hact : perform e s = .next t) (h : EndsWith q t r) : EndsWith (.act e q) s r :=
  h.of_run_eq (by rw [run_act, hact, andThen_next])

theorem EndsWith.actions {es : List HostEvent} (hacts : performAll es s = .next t) (h : EndsWith q t r) :
    EndsWith (actions es q) s r :=
  h.of_run_eq (by rw [run_actions, hacts, andThen_next])

end

/-! ## A container in the input buffer (45_host_sequences R161 T1 to T5, R166 C3 to C5) -/

/-- The sizes of legal parameters fit a register (00_scope R5). -/
theorem legal_sizes {c : Config} (h : c.legal = true) : c.ibufSize ≤ 2147483648 ∧ c.obufSize ≤ 2147483648 := by
  simp only [Config.legal, Bool.and_eq_true, decide_eq_true_eq] at h
  obtain ⟨⟨⟨hibuf, -⟩, hobuf⟩, -⟩ := h
  exact ⟨hibuf, hobuf⟩

/-- A register holds any number up to the largest size. -/
theorem toNat_ofNat_of_le_size {n : Nat} (h : n ≤ 2147483648) : (BitVec.ofNat 32 n).toNat = n := by
  rw [BitVec.toNat_ofNat, Nat.mod_eq_of_lt (by omega)]

/-- The container `x` fits the input buffer and is loaded, with its length in `ILEN`. -/
structure Loaded (x : List Byte) (s : State) : Prop where
  fits : x.length ≤ s.cfg.ibufSize
  bytes : s.ibuf.readBytes 0 x.length = .ok x
  ilen : s.ilen.toNat = x.length

section
variable {x : List Byte} {s t : State} {off : Nat}

theorem KeepsInput.loaded (h : KeepsInput s t) (hx : Loaded x s) : Loaded x t where
  fits := by rw [h.cfg]; exact hx.fits
  bytes := by rw [h.ibuf]; exact hx.bytes
  ilen := by rw [h.ilen]; exact hx.ilen

/-- `load` puts a container that fits in place and leaves the output buffer. -/
theorem performAll_loadEvents_loaded (hlegal : s.cfg.legal = true) (hfit : x.length ≤ s.cfg.ibufSize) :
    ∃ t, performAll (loadEvents x) s = .next t ∧ Loaded x t ∧ t.cfg = s.cfg ∧ t.obuf = s.obuf := by
  refine ⟨_, performAll_loadEvents x s hfit, ⟨hfit, Memory.readBytes_writeBytes s.ibuf 0 x, ?_⟩, rfl, rfl⟩
  exact toNat_ofNat_of_le_size (hfit.trans (legal_sizes hlegal).1)

/-- The bytes of the marker both sequences search for (00_scope R6, 10_state R17). -/
theorem markerBytes_dataMarker : markerBytes (BitVec.ofNat 32 dataMarker) = tagData := by decide

/-- `LOC` looks for "data" in the loaded container. -/
theorem search_loaded (hx : Loaded x s) :
    search s.ibuf (markerBytes (BitVec.ofNat 32 dataMarker)) s.ilen.toNat = .ok (locate tagData x) := by
  rw [hx.ilen, search_eq_locate hx.bytes, markerBytes_dataMarker]

theorem ilenTooLong_loaded (hx : Loaded x s) : ilenTooLong s = false :=
  (ilenTooLong_false_iff s).mpr (hx.ilen ▸ hx.fits)

/-- The search for "data" is a `LOC` and the host's choice from `STATUS`. -/
theorem run_findData (hloc : exec .loc { s with marker := BitVec.ofNat 32 dataMarker } = .next t)
    (k : Nat → HostSequence) :
    runSequence (findData k) s =
      runSequence (if t.err = 0 ∧ t.found = true then withSlot .offset fun off => k off.toNat else .aborted .malformed)
        { t with answers := .reg 1 (t.status &&& 0xF1#32) :: t.answers } := by
  rw [findData, run_actions, performAll, perform_wr_marker, andThen_next, performAll, perform_commandEvent, hloc,
    andThen_next, performAll, andThen_next, run_withSlot_status, errOf_read, foundOf_read]
  rfl

/-- Without "data" in the container the host aborts. -/
theorem findData_absent (hx : Loaded x s) (habsent : locate tagData x = none) (k : Nat → HostSequence) :
    EndsWith (findData k) s (.aborted .malformed) := by
  have hsearch := search_loaded hx
  rw [habsent] at hsearch
  have hfits : ilenTooLong s = false := ilenTooLong_loaded hx
  have hloc := exec_loc_not_found { s with marker := BitVec.ofNat 32 dataMarker } hfits hsearch
  refine EndsWith.of_run_eq (run_findData hloc k) ?_
  rw [if_neg (by simp)]
  exact endsWith_aborted _ _

/-- With "data" in the container the host goes on from its lowest place. -/
theorem run_findData_found (hlegal : s.cfg.legal = true) (hx : Loaded x s) (hfound : locate tagData x = some off) :
    ∃ t, KeepsInput s t ∧ t.obuf = s.obuf ∧ ∀ k, runSequence (findData k) s = runSequence (k off) t := by
  have hsearch := search_loaded hx
  rw [hfound] at hsearch
  have hfits : ilenTooLong s = false := ilenTooLong_loaded hx
  have hloc := exec_loc_found { s with marker := BitVec.ofNat 32 dataMarker } hfits off hsearch
  obtain ⟨t, hloc, herr, hflag, hoff, hkeeps, hobuf⟩ :
      ∃ t, exec .loc { s with marker := BitVec.ofNat 32 dataMarker } = .next t ∧ t.err = 0 ∧ t.found = true ∧
        t.offset = BitVec.ofNat 32 off ∧ KeepsInput s t ∧ t.obuf = s.obuf :=
    ⟨_, hloc, by simp, by simp, rfl, ⟨rfl, rfl, rfl⟩, rfl⟩
  refine ⟨{ t with answers := .reg 5 t.offset :: .reg 1 (t.status &&& 0xF1#32) :: t.answers },
    ⟨hkeeps.cfg, hkeeps.ibuf, hkeeps.ilen⟩, hobuf, fun k => ?_⟩
  have hsmall : off ≤ 2147483648 := by
    obtain ⟨⟨hin, -⟩, -⟩ := (locate_eq_some_iff rfl).mp hfound
    have hfit := hx.fits
    have hsize := (legal_sizes hlegal).1
    omega
  rw [run_findData hloc, if_pos ⟨herr, hflag⟩, run_withSlot_offset]
  simp only [hoff, toNat_ofNat_of_le_size hsmall]

end

/-! ## The output (45_host_sequences R161 T11, T12; R166 C8, C9) -/

/-- With a payload in place behind the header's 58 bytes, both sequences end with the header and the payload. -/
theorem emitHeader_endsWith {s : State} {m : Memory} {p : List Byte} (hlegal : s.cfg.legal = true)
    (hobuf : s.obuf = m.writeBytes headerLength p) (hfit : headerLength + p.length ≤ s.cfg.obufSize) :
    EndsWith (emitHeader p.length .done) s (.done (header p.length ++ p)) := by
  have hsize := (legal_sizes hlegal).2
  have hplen : (BitVec.ofNat 32 p.length).toNat = p.length := toNat_ofNat_of_le_size (by omega)
  have hlimit : ¬ plenLimit < p.length := by rw [plenLimit]; omega
  obtain ⟨t, hhdr, herr, hcfg, hout⟩ :
      ∃ t, exec .hdr { s with plen := BitVec.ofNat 32 p.length } = .next t ∧ t.err = 0 ∧ t.cfg = s.cfg ∧
        t.obuf = (m.writeBytes headerLength p).writeBytes 0 (header p.length) := by
    refine ⟨_, exec_hdr_ok _ (by rwa [hplen]), setErr_err _ _, rfl, ?_⟩
    rw [setErr_obuf, hobuf, hplen]
  have hlen : (header p.length).length = headerLength := header_length p.length
  have hread : t.obuf.readBytes 0 (headerLength + p.length) = .ok (header p.length ++ p) := by
    rw [hout, ← hlen]
    exact Memory.readBytes_head_and_rest
  refine EndsWith.act (perform_wr_plen s p.length) ?_
  refine EndsWith.of_run_eq (run_checkedCommand .hdr .internal _ t ((perform_commandEvent .hdr _).trans hhdr) herr _) ?_
  obtain ⟨as, hdone⟩ := run_done ⟨0, headerLength + p.length⟩ (header p.length ++ p)
    { t with answers := .reg 1 (t.status &&& 0xF1#32) :: t.answers } (by simpa [hcfg] using hfit) hread
  exact ⟨_, hdone⟩

/-! ## `TRANSCODE` (45_host_sequences R161) -/

/-- The codes of the little-endian samples that stand in a run of bytes; an odd last byte is no sample. -/
def codes (c : Config) : List Byte → List Byte
  | lo :: hi :: bs => ulaw c (hi ++ lo) :: codes c bs
  | _ => []

theorem codes_length (c : Config) (bs : List Byte) : (codes c bs).length = bs.length / 2 := by
  induction bs using List.twoStepInduction with
  | nil => rfl
  | singleton => simp [codes]
  | cons_cons lo hi bs ih =>
    simp only [codes, List.length_cons, ih]
    omega

theorem codes_getElem? {c : Config} {bs : List Byte} {k : Nat} {lo hi : Byte} (hlo : bs[2 * k]? = some lo)
    (hhi : bs[2 * k + 1]? = some hi) : (codes c bs)[k]? = some (ulaw c (hi ++ lo)) := by
  induction bs using List.twoStepInduction generalizing k with
  | nil => simp at hlo
  | singleton => simp at hhi
  | cons_cons b b' bs ih =>
    cases k with
    | zero =>
      obtain rfl : b = lo := Option.some.inj hlo
      obtain rfl : b' = hi := Option.some.inj hhi
      rfl
    | succ k =>
      rw [codes, List.getElem?_cons_succ]
      exact ih hlo hhi

/-- One `ENCM` of `TRANSCODE`'s loop: no address wraps under legal sizes. -/
theorem exec_encm_sample {s : State} {lo hi : Byte} (hlegal : s.cfg.legal = true)
    (hilen : s.ilen.toNat ≤ s.cfg.ibufSize) (hsrc : s.src.toNat + 2 ≤ s.ilen.toNat)
    (hdst : s.dst.toNat < s.cfg.obufSize) (hlo : s.ibuf.read s.src.toNat = some lo)
    (hhi : s.ibuf.read (s.src.toNat + 1) = some hi) :
    ∃ t, exec .encm s = .next t ∧ t.err = 0 ∧ KeepsInput s t ∧ t.src.toNat = s.src.toNat + 2 ∧
      t.dst.toNat = s.dst.toNat + 1 ∧ t.obuf = s.obuf.write s.dst.toNat (ulaw s.cfg (hi ++ lo)) := by
  obtain ⟨hibuf, hobuf⟩ := legal_sizes hlegal
  have hin : encmOutOfBounds s = false := (encmOutOfBounds_false_iff s).mpr ⟨hilen, hsrc, hdst⟩
  refine ⟨_, exec_encm_ok s hin _ (bufferOperand_ok s lo hi hlo hhi), setErr_err _ _, ⟨rfl, rfl, rfl⟩, ?_, ?_, rfl⟩
  · exact BitVec.toNat_add_of_lt (show s.src.toNat + 2 < 2 ^ 32 by omega)
  · exact BitVec.toNat_add_of_lt (show s.dst.toNat + 1 < 2 ^ 32 by omega)

/-- The loop of `TRANSCODE` stores the codes of the samples from `SRC` on at `DST` and behind it. -/
theorem run_encodeLoop {s : State} {bs : List Byte} (hlegal : s.cfg.legal = true)
    (hilen : s.ilen.toNat ≤ s.cfg.ibufSize) (hsrc : s.src.toNat + bs.length ≤ s.ilen.toNat)
    (hdst : s.dst.toNat + bs.length / 2 ≤ s.cfg.obufSize) (hbytes : s.ibuf.readBytes s.src.toNat bs.length = .ok bs) :
    ∃ t, t.cfg = s.cfg ∧ t.obuf = s.obuf.writeBytes s.dst.toNat (codes s.cfg bs) ∧
      ∀ k, runSequence (encodeLoop (bs.length / 2) k) s = runSequence k t := by
  induction bs using List.twoStepInduction generalizing s with
  | nil => exact ⟨s, rfl, rfl, fun k => rfl⟩
  | singleton => exact ⟨s, rfl, by simp [codes, Memory.writeBytes], fun k => by simp [encodeLoop]⟩
  | cons_cons lo hi bs ih =>
    obtain ⟨hlo, hrest⟩ := Memory.readBytes_cons_iff.mp hbytes
    obtain ⟨hhi, hrest⟩ := Memory.readBytes_cons_iff.mp hrest
    have hn : (lo :: hi :: bs).length / 2 = bs.length / 2 + 1 := by simp only [List.length_cons]; omega
    rw [hn] at hdst ⊢
    simp only [List.length_cons] at hsrc
    obtain ⟨t, hencm, herr, hkeeps, htsrc, htdst, hobuf⟩ :=
      exec_encm_sample hlegal hilen (by omega) (by omega) hlo hhi
    have hpass := run_checkedCommand .encm .internal s t ((perform_commandEvent .encm s).trans hencm) herr
    obtain ⟨u, hcfg, hout, hrun⟩ := ih (s := { t with answers := .reg 1 (t.status &&& 0xF1#32) :: t.answers })
      (by rw [hkeeps.cfg]; exact hlegal) (by rw [hkeeps.ilen, hkeeps.cfg]; exact hilen)
      (by simp only [htsrc, hkeeps.ilen]; omega) (by simp only [htdst, hkeeps.cfg]; omega)
      (by simp only [htsrc, hkeeps.ibuf]; exact hrest)
    refine ⟨u, hcfg.trans hkeeps.cfg, ?_, fun k => ?_⟩
    · rw [hout, codes, Memory.writeBytes]
      simp only [htdst, hobuf, hkeeps.cfg]
    · rw [encodeLoop, hpass, hrun]

/-- What `TRANSCODE` of an input ends with on a machine with these parameters (R161). -/
def transcodeResult (c : Config) (inp : List Byte) : SeqResult :=
  if c.ibufSize < inp.length then .aborted .capacity
  else
    match locate tagData inp with
    | none => .aborted .malformed
    | some off =>
      if inp.length < off + 8 then .aborted .malformed
      else if c.obufSize < headerLength + sampleCount inp.length off then .aborted .capacity
      else .done (header (sampleCount inp.length off) ++ codes c (inp.drop (off + 8)))

section
variable {inp : List Byte} {s : State} {off : Nat}

theorem codes_drop_length (c : Config) (inp : List Byte) (off : Nat) :
    (codes c (inp.drop (off + 8))).length = sampleCount inp.length off := by
  rw [codes_length, List.length_drop, sampleCount]

/-- `TRANSCODE` from the marker on, its sample count by name (R161 T5 to T12). -/
theorem transcodeAt_eq (c : Config) (len off : Nat) (k : OutRange → HostSequence) :
    transcodeAt c len off k =
      if len < off + 8 then .aborted .malformed
      else if c.obufSize < headerLength + sampleCount len off then .aborted .capacity
      else actions [wrEvent .src (off + 8), wrEvent .dst headerLength]
        (encodeLoop (sampleCount len off) (emitHeader (sampleCount len off) k)) := rfl

/-- The part of `TRANSCODE` behind the checks. -/
theorem transcodeAt_done (hlegal : s.cfg.legal = true) (hx : Loaded inp s) (hroom : off + 8 ≤ inp.length)
    (hfit : headerLength + sampleCount inp.length off ≤ s.cfg.obufSize) :
    EndsWith (transcodeAt s.cfg inp.length off .done) s
      (.done (header (sampleCount inp.length off) ++ codes s.cfg (inp.drop (off + 8)))) := by
  obtain ⟨hibuf, hobuf⟩ := legal_sizes hlegal
  have hinp := hx.fits
  have hsrc : (BitVec.ofNat 32 (off + 8)).toNat = off + 8 := toNat_ofNat_of_le_size (by omega)
  have hdst : (BitVec.ofNat 32 headerLength).toNat = headerLength := rfl
  have hbytes := Memory.readBytes_part hx.bytes (p := off + 8) (n := (inp.drop (off + 8)).length)
    (by rw [List.length_drop]; omega)
  rw [List.take_length, Nat.zero_add] at hbytes
  have hcount : (inp.drop (off + 8)).length / 2 = sampleCount inp.length off := by rw [List.length_drop, sampleCount]
  obtain ⟨t, hcfg, hout, hrun⟩ :=
    run_encodeLoop (s := { s with src := BitVec.ofNat 32 (off + 8), dst := BitVec.ofNat 32 headerLength })
      (bs := inp.drop (off + 8)) hlegal (by rw [hx.ilen]; exact hinp)
      (by rw [hsrc, hx.ilen, List.length_drop]; omega) (by rw [hdst, hcount]; exact hfit) (by rw [hsrc]; exact hbytes)
  rw [transcodeAt_eq, if_neg (by omega), if_neg (by omega)]
  refine EndsWith.actions (t := { s with src := BitVec.ofNat 32 (off + 8), dst := BitVec.ofNat 32 headerLength })
    (by simp only [performAll, perform_wr_src, perform_wr_dst, andThen_next]) ?_
  rw [← hcount]
  refine EndsWith.of_run_eq (hrun _) ?_
  rw [← codes_length s.cfg]
  exact emitHeader_endsWith (by rw [hcfg]; exact hlegal) hout (by rw [hcfg, codes_drop_length]; exact hfit)

/-- `TRANSCODE` ends with its result from every state. -/
theorem transcode_endsWith (hlegal : s.cfg.legal = true) (inp : List Byte) :
    EndsWith (transcodeSequence s.cfg inp .done) s (transcodeResult s.cfg inp) := by
  by_cases hlong : s.cfg.ibufSize < inp.length
  · rw [transcodeSequence, transcodeResult, if_pos hlong, if_pos hlong]
    exact endsWith_aborted _ _
  rw [transcodeSequence, transcodeResult, if_neg hlong, if_neg hlong]
  obtain ⟨t, hload, hx, hcfg, -⟩ :=
    performAll_loadEvents_loaded (s := resetRegisters s) hlegal (Nat.not_lt.mp hlong)
  have hstart : performAll (commandEvent .rst :: loadEvents inp) s = .next t := by
    rw [performAll, perform_commandEvent, exec_rst, andThen_next, hload]
  refine EndsWith.actions hstart ?_
  cases hl : locate tagData inp with
  | none => exact findData_absent hx hl _
  | some off =>
    rw [resetRegisters_cfg] at hcfg
    rw [← hcfg] at hlegal ⊢
    obtain ⟨u, hkeeps, -, hrun⟩ := run_findData_found hlegal hx hl
    refine EndsWith.of_run_eq (hrun _) ?_
    rw [← hkeeps.cfg] at hlegal ⊢
    by_cases hshort : inp.length < off + 8
    · simp only [transcodeAt_eq, if_pos hshort]
      exact endsWith_aborted _ _
    by_cases hbig : u.cfg.obufSize < headerLength + sampleCount inp.length off
    · simp only [transcodeAt_eq, if_neg hshort, if_pos hbig]
      exact endsWith_aborted _ _
    · simp only [if_neg hshort, if_neg hbig]
      exact transcodeAt_done hlegal (hkeeps.loaded hx) (Nat.not_lt.mp hshort) (Nat.not_lt.mp hbig)

end

/-- Settles O53: the result of `TRANSCODE` where no check fails. -/
theorem transcodeOutput : Obligations.TranscodeOutput := by
  intro inp s off hlegal hinp hfound hroom hfit
  have hresult : transcodeResult s.cfg inp =
      .done (header (sampleCount inp.length off) ++ codes s.cfg (inp.drop (off + 8))) := by
    simp only [transcodeResult, hfound, if_neg (Nat.not_lt.mpr hinp), if_neg (Nat.not_lt.mpr hroom)]
    exact if_neg (Nat.not_lt.mpr hfit)
  obtain ⟨t, hrun⟩ := transcode_endsWith hlegal inp
  rw [hresult] at hrun
  have hlen := header_length (sampleCount inp.length off)
  refine ⟨_, t, hrun, ?_, ?_, fun k lo hi hk hlo hhi => ?_⟩
  · rw [List.length_append, hlen, codes_drop_length]
  · rw [List.take_left' hlen, header_eq_headerLayout]
  · rw [List.getElem?_append_right (by omega), hlen, Nat.add_sub_cancel_left]
    exact codes_getElem? (by rwa [List.getElem?_drop]) (by rwa [List.getElem?_drop])

/-- Settles O54: the result of `TRANSCODE` where a check fails. -/
theorem transcodeAborts : Obligations.TranscodeAborts := by
  intro inp s hlegal
  have hends : EndsWith (transcodeSequence s.cfg inp .done) s (transcodeResult s.cfg inp) :=
    transcode_endsWith hlegal inp
  rw [transcodeResult] at hends
  refine ⟨fun hlong => ?_, fun hinp => ⟨fun habsent => ?_, fun off hfound => ⟨fun hshort => ?_, fun hroom hbig => ?_⟩⟩⟩
  · rwa [if_pos hlong] at hends
  · rwa [if_neg (Nat.not_lt.mpr hinp), habsent] at hends
  · simp only [if_neg (Nat.not_lt.mpr hinp), hfound, if_pos hshort] at hends
    exact hends
  · have hbig' : s.cfg.obufSize < headerLength + sampleCount inp.length off := hbig
    simp only [if_neg (Nat.not_lt.mpr hinp), hfound, if_neg (Nat.not_lt.mpr hroom), if_pos hbig'] at hends
    exact hends

/-! ## `CONCAT` (45_host_sequences R166 to R169) -/

/-- The payload length a container declares in the four bytes behind "data" (R167). -/
def declaredLength (x : List Byte) (off : Nat) : Nat := leNat ((x.drop (off + 4)).take 4)

/-- The payload of a container by its declared length, if the container holds it (R167). -/
def payloadOf (x : List Byte) : Option (List Byte) :=
  match locate tagData x with
  | none => none
  | some off =>
    if x.length < off + 8 then none
    else if x.length < off + 8 + declaredLength x off then none
    else some ((x.drop (off + 8)).take (declaredLength x off))

theorem payloadOf_of_holdsPayload {x p : List Byte} {off : Nat} (h : HoldsPayload x off p) : payloadOf x = some p := by
  obtain ⟨hfound, hroom, hlength, hbytes⟩ := h
  simp only [payloadOf, declaredLength, hfound, hlength, hbytes]
  rw [if_neg (by omega), if_neg (by omega)]

/-- The payload `CONCAT` appends for one input behind `total` bytes of payload, or why it aborts (R166 C2 to C7). -/
def appendedPayload (c : Config) (x : List Byte) (total : Nat) : Except AbortReason (List Byte) :=
  if c.ibufSize < x.length then .error .capacity
  else
    match payloadOf x with
    | none => .error .malformed
    | some p => if c.obufSize < headerLength + total + p.length then .error .capacity else .ok p

/-- What `CONCAT` of two inputs ends with on a machine with these parameters (R166). -/
def concatResult (c : Config) (a b : List Byte) : SeqResult :=
  match appendedPayload c a 0 with
  | .error e => .aborted e
  | .ok pa =>
    match appendedPayload c b pa.length with
    | .error e => .aborted e
    | .ok pb => .done (header (pa ++ pb).length ++ (pa ++ pb))

section
variable {x : List Byte} {s : State} {total off : Nat}

/-- In a container where "data" was found the host aborts, or goes on from the payload's place and length. -/
theorem withExtent_cases (hx : Loaded x s) (hfound : locate tagData x = some off) :
    (payloadOf x = none ∧ ∀ k, EndsWith (withExtent x.length off k) s (.aborted .malformed)) ∨
    ∃ p, payloadOf x = some p ∧ off + 8 + p.length ≤ x.length ∧ s.ibuf.readBytes (off + 8) p.length = .ok p ∧
      ∃ as, ∀ k, runSequence (withExtent x.length off k) s =
        runSequence (k (off + 8) p.length) { s with answers := as } := by
  by_cases hshort : x.length < off + 8
  · refine .inl ⟨by simp only [payloadOf, hfound, if_pos hshort], fun k => ?_⟩
    rw [withExtent, if_pos hshort]
    exact endsWith_aborted _ _
  have hfit := hx.fits
  have hfield : s.ibuf.readBytes (off + 4) 4 = .ok ((x.drop (off + 4)).take 4) := by
    simpa using Memory.readBytes_part hx.bytes (p := off + 4) (n := 4) (by omega)
  obtain ⟨as, hread⟩ := run_withBytes .ibuf _ (off + 4) 4 s (show off + 4 + 4 ≤ s.cfg.ibufSize by omega) hfield
  have hextent : ∀ k, runSequence (withExtent x.length off k) s =
      runSequence (if x.length < off + 8 + declaredLength x off then .aborted .malformed
        else k (off + 8) (declaredLength x off)) { s with answers := as } := fun k => by
    rw [withExtent, if_neg hshort, hread, declaredLength]
  by_cases hlong : x.length < off + 8 + declaredLength x off
  · refine .inl ⟨by simp only [payloadOf, hfound, if_neg hshort, if_pos hlong], fun k => ?_⟩
    refine EndsWith.of_run_eq (hextent k) ?_
    rw [if_pos hlong]
    exact endsWith_aborted _ _
  · have hpayload : payloadOf x = some ((x.drop (off + 8)).take (declaredLength x off)) := by
      simp only [payloadOf, hfound, if_neg hshort, if_neg hlong]
    have hlen : ((x.drop (off + 8)).take (declaredLength x off)).length = declaredLength x off := by
      rw [List.length_take, List.length_drop]
      omega
    have hbytes : s.ibuf.readBytes (off + 8) (declaredLength x off) =
        .ok ((x.drop (off + 8)).take (declaredLength x off)) := by
      simpa using Memory.readBytes_part hx.bytes (p := off + 8) (n := declaredLength x off) (by omega)
    refine .inr ⟨_, hpayload, ?_⟩
    rw [hlen]
    exact ⟨Nat.not_lt.mp hlong, hbytes, as, fun k => by rw [hextent, if_neg hlong]⟩

/-- In a loaded container the host aborts, or goes on from the payload's place and length. -/
theorem findPayload_cases (hlegal : s.cfg.legal = true) (hx : Loaded x s) :
    (payloadOf x = none ∧
      ∀ k, EndsWith (findData fun off => withExtent x.length off k) s (.aborted .malformed)) ∨
    ∃ p first t, payloadOf x = some p ∧ first + p.length ≤ x.length ∧ t.ibuf.readBytes first p.length = .ok p ∧
      KeepsInput s t ∧ t.obuf = s.obuf ∧
      ∀ k, runSequence (findData fun off => withExtent x.length off k) s = runSequence (k first p.length) t := by
  cases hl : locate tagData x with
  | none => exact .inl ⟨by simp only [payloadOf, hl], fun k => findData_absent hx hl _⟩
  | some off =>
    obtain ⟨t, hkeeps, hobuf, hrun⟩ := run_findData_found hlegal hx hl
    obtain ⟨hnone, habort⟩ | ⟨p, hpayload, hin, hbytes, as, hgo⟩ := withExtent_cases (hkeeps.loaded hx) hl
    · exact .inl ⟨hnone, fun k => EndsWith.of_run_eq (hrun _) (habort k)⟩
    · exact .inr ⟨p, off + 8, { t with answers := as }, hpayload, hin, hbytes, ⟨hkeeps.cfg, hkeeps.ibuf, hkeeps.ilen⟩,
        hobuf, fun k => (hrun _).trans (hgo k)⟩

/-- One input of `CONCAT`: the host aborts, or the payload stands in the output buffer and the host goes on. -/
theorem appendPayload_cases {c : Config} (hcfg : s.cfg = c) (hlegal : c.legal = true) (x : List Byte) (total : Nat) :
    (∃ e, appendedPayload c x total = .error e ∧ ∀ k, EndsWith (appendPayload c x total k) s (.aborted e)) ∨
    ∃ p t, appendedPayload c x total = .ok p ∧ headerLength + total + p.length ≤ c.obufSize ∧ t.cfg = c ∧
      t.obuf = s.obuf.writeBytes (headerLength + total) p ∧
      ∀ k, runSequence (appendPayload c x total k) s = runSequence (k (total + p.length)) t := by
  subst hcfg
  by_cases hlong : s.cfg.ibufSize < x.length
  · refine .inl ⟨.capacity, by rw [appendedPayload, if_pos hlong], fun k => ?_⟩
    rw [appendPayload, if_pos hlong]
    exact endsWith_aborted _ _
  obtain ⟨t, hload, hx, hcfg, hobuf⟩ := performAll_loadEvents_loaded hlegal (Nat.not_lt.mp hlong)
  have hloaded : ∀ k, runSequence (appendPayload s.cfg x total k) s =
      runSequence (findData fun off => withExtent x.length off fun first n =>
        if s.cfg.obufSize < headerLength + total + n then .aborted .capacity
        else copyLoop n first (headerLength + total) (k (total + n))) t := fun k => by
    rw [appendPayload, if_neg hlong, run_actions, hload, andThen_next]
  obtain ⟨hnone, habort⟩ | ⟨p, first, u, hpayload, hin, hbytes, hkeeps, hsame, hgo⟩ :=
    findPayload_cases (hcfg ▸ hlegal) hx
  · exact .inl ⟨.malformed, by simp only [appendedPayload, if_neg hlong, hnone],
      fun k => EndsWith.of_run_eq (hloaded k) (habort _)⟩
  by_cases hbig : s.cfg.obufSize < headerLength + total + p.length
  · refine .inl ⟨.capacity, by simp only [appendedPayload, if_neg hlong, hpayload, if_pos hbig], fun k => ?_⟩
    refine EndsWith.of_run_eq ((hloaded k).trans (hgo _)) ?_
    rw [if_pos hbig]
    exact endsWith_aborted _ _
  · have hfit := hx.fits
    obtain ⟨v, hcopied, hout, hcopy⟩ := run_copyLoop p.length first (headerLength + total) u p
      (by rw [hkeeps.cfg]; omega) (by rw [hkeeps.cfg, hcfg]; omega) hbytes
    refine .inr ⟨p, v, by simp only [appendedPayload, if_neg hlong, hpayload, if_neg hbig], Nat.not_lt.mp hbig,
      hcopied.cfg.trans (hkeeps.cfg.trans hcfg), by rw [hout, hsame, hobuf], fun k => ?_⟩
    rw [hloaded, hgo, if_neg hbig, hcopy]

/-- `CONCAT` ends with its result from every state. -/
theorem concat_endsWith (hlegal : s.cfg.legal = true) (a b : List Byte) :
    EndsWith (concatSequence s.cfg a b .done) s (concatResult s.cfg a b) := by
  refine EndsWith.act ((perform_commandEvent .rst s).trans (exec_rst s)) ?_
  obtain ⟨e, hpa, habort⟩ | ⟨pa, t, hpa, -, htcfg, htobuf, hgo⟩ :=
    appendPayload_cases (resetRegisters_cfg s) hlegal a 0
  · simp only [concatResult, hpa]
    exact habort _
  rw [Nat.add_zero] at htobuf
  refine EndsWith.of_run_eq (hgo _) ?_
  rw [Nat.zero_add]
  obtain ⟨e, hpb, habort⟩ | ⟨pb, u, hpb, hfit, hucfg, huobuf, hgo⟩ := appendPayload_cases htcfg hlegal b pa.length
  · simp only [concatResult, hpa, hpb]
    exact habort _
  · simp only [concatResult, hpa, hpb]
    refine EndsWith.of_run_eq (hgo _) ?_
    rw [htobuf, ← Memory.writeBytes_append] at huobuf
    rw [← List.length_append]
    exact emitHeader_endsWith (hucfg ▸ hlegal) huobuf (by rw [hucfg, List.length_append]; omega)

end

/-- An input that fits and holds a payload is appended whole. -/
theorem appendedPayload_of_holdsPayload {c : Config} {x p : List Byte} {off total : Nat}
    (hfit : x.length ≤ c.ibufSize) (hx : HoldsPayload x off p) (hroom : headerLength + total + p.length ≤ c.obufSize) :
    appendedPayload c x total = .ok p := by
  simp only [appendedPayload, if_neg (Nat.not_lt.mpr hfit), payloadOf_of_holdsPayload hx,
    if_neg (Nat.not_lt.mpr hroom)]

/-- Settles O55: the result of `CONCAT` where both inputs are appended. -/
theorem concatOutput : Obligations.ConcatOutput := by
  intro a b pa pb offA offB s hlegal ha hb hpa hpb hroom
  have hfits : headerLength + pa.length + pb.length ≤ s.cfg.obufSize := hroom
  have hA : appendedPayload s.cfg a 0 = .ok pa := appendedPayload_of_holdsPayload ha hpa (by omega)
  have hB : appendedPayload s.cfg b pa.length = .ok pb := appendedPayload_of_holdsPayload hb hpb hfits
  obtain ⟨t, hrun⟩ := concat_endsWith hlegal a b
  refine ⟨t, ?_⟩
  simp only [concatResult, hA, hB, header_eq_headerLayout, List.length_append] at hrun
  rw [List.append_assoc]
  exact hrun

/-- Settles O56: the two results are functions of the parameters and the inputs only. -/
theorem macrosForgetEarlierSequences : Obligations.MacrosForgetEarlierSequences := by
  intro a b s s' hlegal hcfg
  have hlegal' : s'.cfg.legal = true := hcfg ▸ hlegal
  obtain ⟨t, htranscode⟩ := transcode_endsWith hlegal a
  obtain ⟨t', htranscode'⟩ := transcode_endsWith hlegal' a
  obtain ⟨u, hconcat⟩ := concat_endsWith hlegal a b
  obtain ⟨u', hconcat'⟩ := concat_endsWith hlegal' a b
  rw [hcfg] at htranscode' hconcat'
  exact ⟨⟨_, t, t', htranscode, by rw [runTranscode, hcfg, htranscode']⟩,
    _, u, u', hconcat, by rw [runConcat, hcfg, hconcat']⟩

end Sys2Proof.Machine

/-! # The exceptions (obligations O8, O34 and O35)

`wordError` is the table of 60_exceptions R180: the error a word written to `CMD` raises in a state.
`perform_of_wordError` and `err_eq_zero_of_no_wordError` tie it to the model: where it names an error, the write only
puts that error's code (R182); where it names none, a write that answers leaves `ERR` at 0. -/

namespace Sys2Proof.Machine

open Sys2Proof.Claims

/-- The error a command raises (60_exceptions R183, R184). -/
def commandError (s : State) : Instr → Option ErrKind
  | .loc => if ilenTooLong s then some .bounds else none
  | .encm => if encmOutOfBounds s then some .bounds else none
  | .hdr => if plenLimit < s.plen.toNat then some .len else none
  | _ => none

/-- The error a word written to `CMD` raises (60_exceptions R180, R181). -/
def wordError (s : State) (w : Word) : Option ErrKind :=
  match decode w with
  | .ok i => commandError s i
  | .error _ => some .illegal

section
variable {s t : State} {w : Word} {i : Instr} {k : ErrKind}

/-! ## The table and the commands -/

/-- The checks that fail commands (60_exceptions R183, R184). -/
theorem commandError_eq_some_iff : commandError s i = some k ↔
    i = .loc ∧ ilenTooLong s = true ∧ k = .bounds ∨
    i = .encm ∧ encmOutOfBounds s = true ∧ k = .bounds ∨
    i = .hdr ∧ plenLimit < s.plen.toNat ∧ k = .len := by
  cases i <;> simp [commandError, eq_comm (a := k)]

theorem exec_of_commandError (h : commandError s i = some k) : exec i s = .next (s.setErr k.errCode) := by
  obtain ⟨rfl, hilen, rfl⟩ | ⟨rfl, hbounds, rfl⟩ | ⟨rfl, hplen, rfl⟩ := commandError_eq_some_iff.mp h
  · exact exec_loc_err s hilen
  · exact exec_encm_err s hbounds
  · exact exec_hdr_err s hplen

theorem err_eq_zero_of_no_commandError (hnone : commandError s i = none) (h : exec i s = .next t) : t.err = 0 := by
  cases i with
  | nop | enc | enci => cases h; exact setErr_err ..
  | rst => cases h; exact resetRegisters_err s
  | encm =>
    obtain ⟨hbounds, -⟩ | ⟨-, a, -, he⟩ | ⟨-, x, -, he⟩ := exec_encm_cases s
    · simp [commandError, hbounds] at hnone
    · cases he.symm.trans h
    · cases he.symm.trans h; exact setErr_err ..
  | loc =>
    obtain ⟨hilen, -⟩ | ⟨-, a, -, he⟩ | ⟨-, p, -, he⟩ | ⟨-, -, he⟩ := exec_loc_cases s
    · simp [commandError, hilen] at hnone
    · cases he.symm.trans h
    · cases he.symm.trans h; exact setErr_err ..
    · cases he.symm.trans h; exact setErr_err ..
  | hdr =>
    obtain ⟨hplen, -⟩ | ⟨-, he⟩ := exec_hdr_cases s
    · simp [commandError, hplen] at hnone
    · cases he.symm.trans h; exact setErr_err ..

/-! ## The table and the words written to `CMD` -/

theorem perform_writeReg_cmd (s : State) (w : Word) : perform (.writeReg 0 w) s = runCommand w s := rfl

theorem perform_of_wordError (h : wordError s w = some k) :
    perform (.writeReg 0 w) s = .next (s.setErr k.errCode) := by
  rw [perform_writeReg_cmd, runCommand]
  unfold wordError at h
  cases hdecode : decode w with
  | ok i => rw [hdecode] at h; exact exec_of_commandError h
  | error _ => rw [hdecode] at h; cases h; rfl

theorem err_eq_zero_of_no_wordError (hnone : wordError s w = none) (h : perform (.writeReg 0 w) s = .next t) :
    t.err = 0 := by
  rw [perform_writeReg_cmd, runCommand] at h
  unfold wordError at hnone
  cases hdecode : decode w with
  | ok i => rw [hdecode] at h hnone; exact err_eq_zero_of_no_commandError hnone h
  | error _ => rw [hdecode] at hnone; cases hnone

/-- After a write of `CMD` that answers, `ERR` is the code the table gives. -/
theorem err_eq_code_of_wordError (h : perform (.writeReg 0 w) s = .next t) :
    t.err = ((wordError s w).map ErrKind.errCode).getD 0 := by
  cases herror : wordError s w with
  | none => exact err_eq_zero_of_no_wordError herror h
  | some k => cases (perform_of_wordError herror).symm.trans h; exact setErr_err ..

/-- The codes tell the errors apart, and none of them is 0. -/
theorem code_eq_errCode_iff :
    ∀ (e : Option ErrKind) (k : ErrKind), (e.map ErrKind.errCode).getD 0 = k.errCode ↔ e = some k := by
  rintro (_ | (_ | _ | _)) (_ | _ | _) <;> decide

theorem err_eq_errCode_iff (h : perform (.writeReg 0 w) s = .next t) :
    t.err = k.errCode ↔ wordError s w = some k := by
  rw [err_eq_code_of_wordError h, code_eq_errCode_iff]

/-! ## The causes of each error -/

/-- A word raises `E_ILLEGAL` when the decoder names no command, and otherwise what its command raises. -/
theorem wordError_eq_some_iff : wordError s w = some k ↔
    (∀ i, decode w ≠ .ok i) ∧ k = .illegal ∨ ∃ i, decode w = .ok i ∧ commandError s i = some k := by
  unfold wordError
  cases decode w <;> simp [eq_comm (a := k)]

theorem wordError_eq_illegal_iff : wordError s w = some .illegal ↔ ∀ i, decode w ≠ .ok i := by
  simp [wordError_eq_some_iff, commandError_eq_some_iff]

theorem wordError_eq_bounds_iff : wordError s w = some .bounds ↔
    decode w = .ok .loc ∧ ilenTooLong s = true ∨ decode w = .ok .encm ∧ encmOutOfBounds s = true := by
  simp [wordError_eq_some_iff, commandError_eq_some_iff, and_or_left, exists_or]

theorem wordError_eq_len_iff : wordError s w = some .len ↔ decode w = .ok .hdr ∧ plenLimit < s.plen.toNat := by
  simp [wordError_eq_some_iff, commandError_eq_some_iff]

end

/-! ## The obligations -/

/-- Settles O8: the decoder names no command for a word no row covers (O2), and the table gives it `E_ILLEGAL`. -/
theorem illegalWordSetsErrOnly : Obligations.IllegalWordSetsErrOnly := by
  intro s w huncovered
  have hillegal : ∀ i, decode w ≠ .ok i := fun i hi => by
    obtain ⟨r, hr, hcovers, -⟩ := (legalExactlyByOneRow.1 w i).mp hi
    exact huncovered r hr hcovers
  rw [perform_of_wordError (wordError_eq_illegal_iff.mpr hillegal), ← putErr_illegal]
  rfl

/-- Settles O34: a code that is not 0 comes from an error of the table, which writes `ERR` only. -/
theorem failedCommandChangesOnlyErr : Obligations.FailedCommandChangesOnlyErr := by
  intro s t w h herr
  cases herror : wordError s w with
  | none => exact absurd (err_eq_zero_of_no_wordError herror h) herr
  | some k =>
    cases (perform_of_wordError herror).symm.trans h
    rw [setErr_err]
    rfl

/-- Settles O35: each code is its error's in the table, and the causes are those of the checks the table names. -/
theorem errorCodesAndTheirCauses : Obligations.ErrorCodesAndTheirCauses := by
  refine ⟨rfl, fun s t w h => ⟨?_, ?_, ?_, ?_⟩⟩
  · rw [err_eq_code_of_wordError h]
    rcases wordError s w with _ | (_ | _ | _) <;> decide
  · exact (err_eq_errCode_iff (k := .illegal) h).trans wordError_eq_illegal_iff
  · refine (err_eq_errCode_iff (k := .bounds) h).trans (wordError_eq_bounds_iff.trans ?_)
    rw [ilenTooLong_iff, encmOutOfBounds_iff]
    tauto
  · exact (err_eq_errCode_iff (k := .len) h).trans wordError_eq_len_iff

end Sys2Proof.Machine

/-! # Resets, idling, and what the host owes the block (obligations O9, O18 and O41)

The three reset states are one function, `resetRegisters`, applied to states with different buffers. A command whose
operands have values cannot reach its fault branch, so every prepared event completes. -/

namespace Sys2Proof.Machine

open Sys2Proof.Claims

/-! ## Prepared events complete (70_reset R203) -/

section
variable {s : State}

theorem bufferOperand_of_hasBytes (h : s.ibuf.hasBytes s.src.toNat 2) : ∃ x, bufferOperand s = .ok x := by
  obtain ⟨lo, hlo⟩ := h 0 (by decide)
  obtain ⟨hi, hhi⟩ := h 1 (by decide)
  exact ⟨_, bufferOperand_ok s lo hi hlo hhi⟩

theorem search_of_hasBytes {mem : Memory} {len : Nat} (w : Word) (h : mem.hasBytes 0 len) :
    ∃ r, search mem (markerBytes w) len = .ok r := by
  cases hsearch : search mem (markerBytes w) len with
  | ok r => exact ⟨r, rfl⟩
  | error a =>
    obtain ⟨hlt, hnone⟩ := search_error mem w len a hsearch
    obtain ⟨v, hv⟩ := h a hlt
    rw [Nat.zero_add, hnone] at hv
    cases hv

/-- The fault branches of `ENCM` and `LOC` need a byte without a value; no other command has one. -/
theorem exec_continues_of_ready {i : Instr} (h : s.Ready i) : Continues (exec i s) := by
  cases i with
  | nop | enc | enci | rst => exact ⟨_, rfl⟩
  | encm =>
    obtain ⟨-, he⟩ | ⟨hbounds, a, ha, -⟩ | ⟨-, x, -, he⟩ := exec_encm_cases s
    · exact ⟨_, he⟩
    · obtain ⟨x, hx⟩ := bufferOperand_of_hasBytes (h hbounds)
      cases ha.symm.trans hx
    · exact ⟨_, he⟩
  | loc =>
    obtain ⟨-, he⟩ | ⟨hilen, a, ha, -⟩ | ⟨-, p, -, he⟩ | ⟨-, -, he⟩ := exec_loc_cases s
    · exact ⟨_, he⟩
    · obtain ⟨r, hr⟩ := search_of_hasBytes s.marker (h hilen)
      cases ha.symm.trans hr
    · exact ⟨_, he⟩
    · exact ⟨_, he⟩
  | hdr => obtain ⟨-, he⟩ | ⟨-, he⟩ := exec_hdr_cases s <;> exact ⟨_, he⟩

/-- An illegal word completes too: it raises `E_ILLEGAL` (60_exceptions R181). -/
theorem runCommand_continues {w : Word} (h : ∀ i, decode w = .ok i → s.Ready i) : Continues (runCommand w s) := by
  rw [runCommand]
  cases hdecode : decode w with
  | ok i => exact exec_continues_of_ready (h i hdecode)
  | error _ => exact ⟨_, rfl⟩

theorem perform_continues_of_safe {e : HostEvent} (h : e.Safe s) : Continues (perform e s) := by
  cases e with
  | writeReg i v =>
    obtain ⟨hi, hready⟩ := h
    by_cases hcmd : i = 0
    · subst hcmd
      exact runCommand_continues (hready rfl)
    · obtain ⟨slot, hslot⟩ := exists_slotOf hi
      exact ⟨_, perform_writeReg s v hslot (slotOf_ne_cmd hslot hcmd)⟩
  | readReg i =>
    obtain ⟨slot, hslot⟩ := exists_slotOf h
    exact ⟨_, perform_readReg s hslot⟩
  | writeByte sp a v => exact ⟨_, perform_writeByte s v h⟩
  | readByte sp a =>
    obtain ⟨ha, v, hv⟩ := h
    exact ⟨_, hostReadByte_eq sp a v s ha hv⟩
  | hardwareReset => exact ⟨_, rfl⟩

end

/-- Settles O41. -/
theorem preparedEventsComplete : Obligations.PreparedEventsComplete :=
  ⟨fun _ _ => exec_continues_of_ready, fun _ _ => perform_continues_of_safe⟩

/-! ## Idling (70_reset R201, R211) -/

/-- Settles O9. -/
theorem idleKeepsTheState : Obligations.IdleKeepsTheState := by
  intro s hidle
  rw [step, nextEvent, hidle]

/-! ## The two resets (70_reset R200, 10_state R31) -/

theorem readSlot_resetRegisters (s : State) (slot : Slot) : (resetRegisters s).readSlot slot = resetValue slot := by
  cases slot with
  | status => rw [State.readSlot, resetRegisters_status, BitVec.zero_and, resetValue]
  | _ => rfl

/-- Power-on is a register reset of itself: its registers already hold the values of R31. -/
theorem reset_eq_resetRegisters : State.reset = resetRegisters State.reset := rfl

/-- Hardware reset forgets the buffers and resets the registers. -/
theorem hardwareResetState_eq_resetRegisters (s : State) :
    hardwareResetState s = resetRegisters { s with ibuf := [], obuf := [] } := rfl

theorem read_buf_of_empty {s : State} (hibuf : s.ibuf = []) (hobuf : s.obuf = []) (sp : Space) (a : Nat) :
    (s.buf sp).read a = none := by
  cases sp with
  | ibuf => rw [buf_ibuf, hibuf, Memory.read]
  | obuf => rw [buf_obuf, hobuf, Memory.read]

theorem resetRegisters_buf (s : State) (sp : Space) : (resetRegisters s).buf sp = s.buf sp := by
  cases sp <;> rfl

/-- Settles O18: the slots from the one register reset behind all three states, the buffers state by state. -/
theorem bothResets : Obligations.BothResets := by
  refine ⟨rfl, fun s => ⟨hardwareResetState s, resetRegisters s, rfl, exec_rst s, fun slot => ⟨?_, ?_, ?_⟩,
    fun sp a => ⟨?_, ?_, ?_⟩, hardwareReset_cfg s, resetRegisters_cfg s⟩⟩
  · rw [reset_eq_resetRegisters, readSlot_resetRegisters]
  · rw [hardwareResetState_eq_resetRegisters, readSlot_resetRegisters]
  · exact readSlot_resetRegisters s slot
  · exact read_buf_of_empty rfl rfl sp a
  · exact read_buf_of_empty (hardwareReset_ibuf s) (hardwareReset_obuf s) sp a
  · rw [resetRegisters_buf]

end Sys2Proof.Machine
